-- ==== Sys2Proof/Word.lean ====
section
/-! DEFINITION. The data widths of the block: words, bytes and operation codes. -/

namespace Sys2Proof

/-- A 32-bit word (00_scope.md R6 `W`, R8): the width of the datapath, of a key word and of a channel word. -/
abbrev Word := BitVec 32

/-- An 8-bit byte (00_scope.md R8). -/
abbrev Byte := BitVec 8

/-- A 4-bit operation code, the field `OP` of a header (30_encoding.md R71). -/
abbrev Opcode := BitVec 4

end Sys2Proof
end

