-- ==== Sys2Proof/Syntax.lean ====
section
/-! DEFINITION. The commands of the block, as the abstract command of 30_encoding.md R85 writes them, and the items they bring
and answer. -/

namespace Sys2Proof

/-- The rounds operand of `NEW.*` (30_encoding.md R85). -/
inductive RoundsArg where
  /-- `Absent`: the caller gave no round count. -/
  | absent
  /-- `IntR(v)`: `v` a signed integer, in -2^31 to 2^31 - 1 (checked by WellFormed). -/
  | int (v : Int)
  /-- `NonIntR`: the caller gave something that is not an integer. -/
  | nonInt
  deriving DecidableEq, Repr

/-- One element of a key given as words (30_encoding.md R85). -/
inductive KeyElem where
  /-- `IntE(v)`: the element is an integer, a word. -/
  | int (v : Word)
  /-- `NonIntE`: the element is not an integer. -/
  | nonInt
  deriving DecidableEq, Repr

/-- The eight commands, one constructor per row of opcode_table.json (30_encoding.md R77, R85). -/
inductive Instr where
  /-- `KEYSIZE` (R150). -/
  | keysize
  /-- `BLOCKSIZE` (R151). -/
  | blocksize
  /-- `NEW.BYTES(key, r)` (R106). -/
  | newBytes (key : List Byte) (r : RoundsArg)
  /-- `NEW.WORDS(key, r)` (R107). -/
  | newWords (key : List KeyElem) (r : RoundsArg)
  /-- `ENCRYPT(b)` (R152). -/
  | encrypt (b : List Byte)
  /-- `DECRYPT(b)` (R153). -/
  | decrypt (b : List Byte)
  /-- `ENCRYPT_BLOCK(w)` (R138). -/
  | encryptBlock (w : List Word)
  /-- `DECRYPT_BLOCK(w)` (R139). -/
  | decryptBlock (w : List Word)
  deriving DecidableEq, Repr

end Sys2Proof

namespace Sys2Proof.Machine

/-- An item of the operand buffer `IB`: "a byte, a 32-bit word, or a key element" (10_state.md R27). -/
inductive OpItem where
  | byte (b : Byte)
  | word (w : Word)
  | elem (e : KeyElem)
  deriving DecidableEq, Repr

/-- An item of the result buffer `OB`: a byte or a 32-bit word (20_memory.md R50). -/
inductive ResItem where
  | byte (b : Byte)
  | word (w : Word)
  deriving DecidableEq, Repr

end Sys2Proof.Machine
end

