-- ==== Sys2Proof/Config.lean ====
section
/-! DEFINITION. What is fixed for this hardware (the parameters of 00_scope.md R6 and R7) and the free values. -/

namespace Sys2Proof.Config

/-- `DELTA`, the per-round additive constant (00_scope.md R6, 41_block_codec.md R122). -/
def delta : Word := 0x9E3779B9

/-- `KEYSIZE`: bytes in a raw key (00_scope.md R6). -/
def keySize : Nat := 16

/-- `BLOCKSIZE`: bytes in a block (00_scope.md R6). -/
def blockSize : Nat := 8

/-- `KEY_WORDS`: words in a key (00_scope.md R6). -/
def keyWords : Nat := 4

/-- `BLOCK_WORDS`: words in a block (00_scope.md R6). -/
def blockWords : Nat := 2

/-- `DEFAULT_ROUNDS`: the round count when none is given (00_scope.md R6). -/
def defaultRounds : Word := 32

/-- The most items a command carries: `LEN_W = 5`, counts 0 to 31 (00_scope.md R7, D5). -/
def maxItems : Nat := 31

/-- The most items a response carries: `OB[0..7]` (10_state.md R20, R27). -/
def maxResults : Nat := 8

/-- The integers the rounds operand can hold: `RV_W = 32`, two's complement (00_scope.md R7, D6). -/
def minRoundsOperand : Int := -2147483648

/-- The largest integer the rounds operand can hold (00_scope.md R7, D6). -/
def maxRoundsOperand : Int := 2147483647

/-- FREE VALUE. The `n`-th 32-bit value the spec leaves "unspecified" (10_state.md R25, R31, 41_block_codec.md R136,
93_implementation_defined.md U5, U6). It has no body: nothing can be proved of it (entries 3 and 4). -/
opaque freeWord : Nat → Word

/-- FREE VALUE. The `n`-th value of the register `OPL` the spec leaves "unspecified" (entries 3 and 4). -/
opaque freeOpcode : Nat → Opcode

/-- FREE VALUE. The `n`-th content of `IB` the spec leaves "unspecified" (10_state.md R27; entry 5). -/
opaque freeOperands : Nat → List Machine.OpItem

/-- FREE VALUE. The `n`-th content of `OB` the spec leaves "unspecified" (10_state.md R27; entry 5). -/
opaque freeResults : Nat → List Machine.ResItem

end Sys2Proof.Config
end

