-- ==== Sys2Proof/WellFormed.lean ====
section
/-! DEFINITION. Which commands the encoding can carry: "Every sequence has length 0 to 31" and
"v a signed integer, -2^31 <= v <= 2^31 - 1" (30_encoding.md R85). -/

namespace Sys2Proof

/-- The bound of the rounds operand (30_encoding.md R85, R73). -/
def RoundsArg.wf : RoundsArg → Bool
  | .absent => true
  | .int v => decide (Config.minRoundsOperand ≤ v) && decide (v ≤ Config.maxRoundsOperand)
  | .nonInt => true

/-- The bound of an operand sequence (30_encoding.md R85). -/
def itemsFit {α : Type} (items : List α) : Bool := decide (items.length ≤ Config.maxItems)

/-- A command the encoding of 30_encoding.md R71 to R75 can carry. A length that is wrong for the operation is well
formed: "it decodes, and the command's own rule refuses it" (R76). -/
def Instr.wf : Instr → Bool
  | .keysize => true
  | .blocksize => true
  | .newBytes key r => itemsFit key && r.wf
  | .newWords key r => itemsFit key && r.wf
  | .encrypt b => itemsFit b
  | .decrypt b => itemsFit b
  | .encryptBlock w => itemsFit w
  | .decryptBlock w => itemsFit w

end Sys2Proof
end

