-- ==== Sys2Proof/Decode.lean ====
section
/-! DEFINITION. From channel words to commands and back: the header's fields, framing, decoding (total, rejecting by
name) and the encoder, after 30_encoding.md R70 to R78. -/

namespace Sys2Proof

/-! ## The fields of a header (R71) -/

/-- `OP`, bits 31:28. -/
def opField (h : Word) : Opcode := h.extractLsb' 28 4

/-- `KF`, bit 27: the key form; an `EMASK` word follows. -/
def kfBit (h : Word) : Bool := h.getLsbD 27

/-- `RP`, bit 26: rounds present; an `RVAL` word follows. -/
def rpBit (h : Word) : Bool := h.getLsbD 26

/-- `RI`, bit 25: the rounds operand is an integer. -/
def riBit (h : Word) : Bool := h.getLsbD 25

/-- The reserved bits 24:5. -/
def reservedField (h : Word) : BitVec 20 := h.extractLsb' 5 20

/-- `LEN`, bits 4:0: the number of items. -/
def lenField (h : Word) : Nat := (h.extractLsb' 0 5).toNat

/-- `F(H) = RP + KF + LEN`, the number of following words, "for every value of `H`, legal or not" (R72). -/
def followCount (h : Word) : Nat := (rpBit h).toNat + (kfBit h).toNat + lenField h

/-! ## Decoding (R76) -/

/-- Why words spell no command. All but `wordCount` are the illegal encodings of R78. -/
inductive Reject where
  /-- A nonzero reserved bit `H[24:5]`. -/
  | reservedBits
  /-- `OP` is 0 or 8 to 15. -/
  | unusedOpcode
  /-- `KF`, `RP` or `RI` is set and `OP ≠ 3`. -/
  | newOnlyBits
  /-- `LEN ≠ 0` with `OP` 1 or 2. -/
  | queryLength
  /-- A byte item word with a nonzero bit in 31:8. -/
  | byteItem
  /-- Not `F(H)` following words: no command of the channel, since the block takes exactly `F(H)` (R72; entry 15). -/
  | wordCount
  deriving DecidableEq, Repr

/-- The rounds operand and the words after it (R73): `RVAL` is there exactly when `RP = 1`. -/
def takeRounds (h : Word) (ws : List Word) : Except Reject (RoundsArg × List Word) :=
  if rpBit h then
    match ws with
    | v :: rest => .ok (if riBit h then .int v.toInt else .nonInt, rest)
    | [] => .error .wordCount
  else .ok (.absent, ws)

/-- Byte items (R75): the byte in bits 7:0, and bits 31:8 must be 0. -/
def byteItems (ws : List Word) : Except Reject (List Byte) :=
  if ws.all (fun w => w.extractLsb' 8 24 == 0) then .ok (ws.map (fun w => w.extractLsb' 0 8))
  else .error .byteItem

/-- Key elements `i`, `i + 1`, … (R74): bit `i` of `EMASK` is the integer tag of element `i`. -/
def keyElems (emask : Word) : Nat → List Word → List KeyElem
  | _, [] => []
  | i, w :: ws => (if emask.getLsbD i then .int w else .nonInt) :: keyElems emask (i + 1) ws

/-- `OP = 3` (R76): `NEW.BYTES` or `NEW.WORDS`, by `KF`. -/
def decodeNew (h : Word) (ws : List Word) : Except Reject Instr :=
  match takeRounds h ws with
  | .error e => .error e
  | .ok (r, items) =>
    if kfBit h then
      match items with
      | emask :: elems => .ok (.newWords (keyElems emask 0 elems) r)
      | [] => .error .wordCount
    else
      match byteItems items with
      | .ok key => .ok (.newBytes key r)
      | .error e => .error e

/-- The bits `KF`, `RP`, `RI`, which must be 0 when `OP ≠ 3` (R71, R78). -/
def newOnlySet (h : Word) : Bool := kfBit h || rpBit h || riBit h

/-- `OP` 1 and 2 (R76): no operand at all. -/
def decodeQuery (i : Instr) (h : Word) : Except Reject Instr :=
  if newOnlySet h then .error .newOnlyBits
  else if lenField h = 0 then .ok i
  else .error .queryLength

/-- `OP` 4 and 5 (R76): byte items. -/
def decodeBytes (mk : List Byte → Instr) (h : Word) (ws : List Word) : Except Reject Instr :=
  if newOnlySet h then .error .newOnlyBits
  else
    match byteItems ws with
    | .ok b => .ok (mk b)
    | .error e => .error e

/-- `OP` 6 and 7 (R76): word items, taken as they are. -/
def decodeWords (mk : List Word → Instr) (h : Word) (ws : List Word) : Except Reject Instr :=
  if newOnlySet h then .error .newOnlyBits else .ok (mk ws)

/-- Decoding, total on every header and every following words (R76). Where it rejects, the command is `ILLEGAL(OP)`. -/
def decode (h : Word) (ws : List Word) : Except Reject Instr :=
  if reservedField h ≠ 0 then .error .reservedBits
  else if ws.length ≠ followCount h then .error .wordCount
  else
    match (opField h).toNat with
    | 1 => decodeQuery .keysize h
    | 2 => decodeQuery .blocksize h
    | 3 => decodeNew h ws
    | 4 => decodeBytes .encrypt h ws
    | 5 => decodeBytes .decrypt h ws
    | 6 => decodeWords .encryptBlock h ws
    | 7 => decodeWords .decryptBlock h ws
    | _ => .error .unusedOpcode

/-! ## Encoding (R71 to R75, R86) -/

/-- The operation code of a command (R77). -/
def Instr.opcode : Instr → Opcode
  | .keysize => 1
  | .blocksize => 2
  | .newBytes _ _ => 3
  | .newWords _ _ => 3
  | .encrypt _ => 4
  | .decrypt _ => 5
  | .encryptBlock _ => 6
  | .decryptBlock _ => 7

/-- A header from its fields, the reserved bits zero (R71): `OP`, `KF`, `RP`, `RI`, 20 zeros, `LEN`. -/
def mkHeader (op : Opcode) (kf rp ri : Bool) (len : Nat) : Word :=
  op ++ BitVec.ofBool kf ++ BitVec.ofBool rp ++ BitVec.ofBool ri ++ (0 : BitVec 20) ++ BitVec.ofNat 5 len

/-- Is there a round count operand (`RP`)? -/
def RoundsArg.present : RoundsArg → Bool
  | .absent => false
  | .int _ => true
  | .nonInt => true

/-- Is the round count operand an integer (`RI`)? The encoder sends 0 where the bit is ignored (entry 16). -/
def RoundsArg.isInt : RoundsArg → Bool
  | .absent => false
  | .int _ => true
  | .nonInt => false

/-- The `RVAL` word, if any (R73); 0 where its content is ignored (entry 16). -/
def RoundsArg.words : RoundsArg → List Word
  | .absent => []
  | .int v => [BitVec.ofInt 32 v]
  | .nonInt => [0]

/-- A byte item's word (R75). -/
def byteWord (b : Byte) : Word := b.setWidth 32

/-- A key element's item word (R74, R75); 0 where it is ignored (entry 16). -/
def KeyElem.word : KeyElem → Word
  | .int v => v
  | .nonInt => 0

/-- A key element's integer tag `EI` (R74). -/
def KeyElem.tag : KeyElem → Bool
  | .int _ => true
  | .nonInt => false

/-- The number whose bit `i` is the tag of element `i` (R74); bits at and above the count are 0 (entry 16). -/
def emaskNat : List KeyElem → Nat
  | [] => 0
  | e :: es => e.tag.toNat + 2 * emaskNat es

/-- The `EMASK` word (R74). -/
def emaskWord (key : List KeyElem) : Word := BitVec.ofNat 32 (emaskNat key)

/-- The header word of a command (R71, R77). -/
def Instr.header (i : Instr) : Word :=
  match i with
  | .keysize => mkHeader i.opcode false false false 0
  | .blocksize => mkHeader i.opcode false false false 0
  | .newBytes key r => mkHeader i.opcode false r.present r.isInt key.length
  | .newWords key r => mkHeader i.opcode true r.present r.isInt key.length
  | .encrypt b => mkHeader i.opcode false false false b.length
  | .decrypt b => mkHeader i.opcode false false false b.length
  | .encryptBlock w => mkHeader i.opcode false false false w.length
  | .decryptBlock w => mkHeader i.opcode false false false w.length

/-- The following words of a command, in the order of R72: `RVAL`, `EMASK`, the items. -/
def Instr.following : Instr → List Word
  | .keysize => []
  | .blocksize => []
  | .newBytes key r => r.words ++ key.map byteWord
  | .newWords key r => r.words ++ emaskWord key :: key.map KeyElem.word
  | .encrypt b => b.map byteWord
  | .decrypt b => b.map byteWord
  | .encryptBlock w => w
  | .decryptBlock w => w

/-- The words of a command on the channel: header first (R70). -/
def encode (i : Instr) : List Word := i.header :: i.following

/-! ## Words of the opcode table -/

/-- Word `k` of a command whose bits are `w`, bit 0 the least significant bit of the header. -/
def tableWord (w k : Nat) : Word := BitVec.ofNat 32 (w >>> (32 * k))

/-- The header and the `F(H)` following words of the command whose first `nbits` bits are those of `w`, every later bit
being 0. The channel carries whole words (R65, R70), so there is no byte order to apply (entry 17). -/
def tableFrame (nbits w : Nat) : Word × List Word :=
  let v := w % 2 ^ nbits
  let h := tableWord v 0
  (h, (List.range (followCount h)).map (fun k => tableWord v (k + 1)))

/-- The instruction the decoder reads from the command whose bits are `w`. -/
def decodeTableWord (nbits w : Nat) : Option Instr :=
  match decode (tableFrame nbits w).1 (tableFrame nbits w).2 with
  | .ok i => some i
  | .error _ => none

end Sys2Proof
end

