-- ==== Sys2Proof/Machine/State.lean ====
section
/-! DEFINITION. Everything the spec gives the machine (10_state.md R20), the transfers in progress its channels imply,
the host's side of the ports, and the machine right after reset. -/

namespace Sys2Proof.Machine

/-- The key register file `K[0..3]` (10_state.md R21), and a normalised key `(k0, k1, k2, k3)` as a value (R9). -/
structure Key where
  k0 : Word
  k1 : Word
  k2 : Word
  k3 : Word
  deriving DecidableEq, Repr

/-- `x[i]`, register `i` of the key register file (00_scope.md R10). -/
def Key.x (k : Key) : Fin 4 → Word
  | 0 => k.k0
  | 1 => k.k1
  | 2 => k.k2
  | 3 => k.k3

/-- A block `(y, z)`: `y` is word 0 and `z` word 1 (00_scope.md R9). -/
structure Block where
  y : Word
  z : Word
  deriving DecidableEq, Repr

/-- The register `PH` (10_state.md R26): 0 `IDLE`, 1 `RUN_ENC`, 2 `RUN_DEC`. The value 3 "is never taken" and cannot be
written down (93_implementation_defined.md U7; entry 10). -/
inductive Phase where
  | idle
  | runEnc
  | runDec
  deriving DecidableEq, Repr

/-- The nine errors a command can end with (60_exceptions.md R171). -/
inductive ErrName where
  | invalidKeyLength
  | invalidKeyShape
  | invalidKeyElement
  | invalidRounds
  | invalidBlockLength
  | malformedBlock
  | malformedKey
  | notConfigured
  | illegalCommand
  deriving DecidableEq, Repr

/-- How a command ends: `respond(items)` or `raise E` (00_scope.md R10). -/
inductive Answer where
  | ok (items : List ResItem)
  | err (e : ErrName)
  deriving DecidableEq, Repr

/-- The state of the machine. `k` to `ob` are the spec's own (10_state.md R20); `rx` and `rspOut` are the transfers in
progress on the two channels (70_reset_and_hazards.md R202 to R204; entry 6); `cmdIn` to `rst` are the host's side of the
ports (R210; entry 7); `freeCount` is the model's own (entry 4). -/
structure State where
  /-- `K[0..3]` (R21). -/
  k : Key
  /-- `ROUNDS` (R22). -/
  rounds : Word
  /-- `CFG` (R23). -/
  cfg : Bool
  /-- `Y` (R25). -/
  y : Word
  /-- `Z` (R25). -/
  z : Word
  /-- `SUM` (R25). -/
  sum : Word
  /-- `PH` (R26). -/
  ph : Phase
  /-- `RC` (R26). -/
  rc : Word
  /-- `OPL` (R26). -/
  opl : Opcode
  /-- `IB`: its items, `IB[0]` first (R27). -/
  ib : List OpItem
  /-- `OB`: its items, `OB[0]` first (R27). -/
  ob : List ResItem
  /-- The words of the command being delivered that are transferred already, header first (R202, R203). -/
  rx : List Word
  /-- The response words offered and not yet taken, oldest first (R204). -/
  rspOut : List Word
  /-- The words the host offers on the command channel, in order (R210). -/
  cmdIn : List Word
  /-- The response words the host has taken, oldest first (R210). -/
  rspTaken : List Word
  /-- The level of `rsp_ready` (R210). -/
  rspReady : Bool
  /-- The level of `rst` (R210). -/
  rst : Bool
  /-- How many free values have been drawn (entry 4). -/
  freeCount : Nat
  deriving DecidableEq, Repr

/-- Why the machine stops. Both are safe: they stop the model in sequencer states that the spec says are never taken, and
no state that meets `State.Inv` raises them. -/
inductive Fault where
  /-- Raised by the sequencer in a running phase when `RC` is above `ROUNDS`, which "runs from 0 to `ROUNDS`"
  (10_state.md R26): no rule gives a step there. Safe. -/
  | rcPastRounds
  /-- Raised by the completion step when `OPL` is no transform's opcode, which the start step never leaves
  (41_block_codec.md R133, R136): no rule gives a response there. Safe. -/
  | oplNotTransform
  deriving DecidableEq, Repr

/-- Why an instruction has no meaning. -/
inductive Refusal where
  /-- Raised by an arm of `exec` whose instruction has no meaning yet, named by its mnemonic. Safe. No arm raises it. -/
  | notModelled (mnemonic : String)
  deriving DecidableEq, Repr

/-- What one step answers. -/
abbrev Result := Host.Outcome State Fault Refusal

/-- The machine right after reset (10_state.md R31): `CFG = 0`, `PH = IDLE`, the channel at a header boundary and no
response pending (70_reset_and_hazards.md R200). Every register R31 leaves "unspecified" is 0 and both buffers are empty:
DESIGN CHOICE (entries 2 and 5). The host offers nothing, takes responses and does not assert reset (entry 7). -/
def State.reset : State where
  k := ⟨0, 0, 0, 0⟩
  rounds := 0
  cfg := false
  y := 0
  z := 0
  sum := 0
  ph := .idle
  rc := 0
  opl := 0
  ib := []
  ob := []
  rx := []
  rspOut := []
  cmdIn := []
  rspTaken := []
  rspReady := true
  rst := false
  freeCount := 0

end Sys2Proof.Machine
end

