-- ==== Sys2Proof/Machine/Flags.lean ====
section
/-! DEFINITION. The status outputs: error codes and the status word of a response (60_exceptions.md R171, 30_encoding.md
R79, R80), and the block's port outputs (70_reset_and_hazards.md R210). There are no condition codes (10_state.md R28). -/

namespace Sys2Proof.Machine

/-- The code of an error (60_exceptions.md R171). -/
def ErrName.code : ErrName → BitVec 8
  | .invalidKeyLength => 1
  | .invalidKeyShape => 2
  | .invalidKeyElement => 3
  | .invalidRounds => 4
  | .invalidBlockLength => 5
  | .malformedBlock => 6
  | .malformedKey => 7
  | .notConfigured => 8
  | .illegalCommand => 9

/-- The status word `S`: `ERR[31]`, 0, `OPE[27:24]`, 0, `CODE[15:8]`, `RLEN[7:0]` (30_encoding.md R79). -/
def statusWord (err : Bool) (ope : Opcode) (code rlen : BitVec 8) : Word :=
  BitVec.ofBool err ++ (0 : BitVec 3) ++ ope ++ (0 : BitVec 8) ++ code ++ rlen

/-- A result item's word on the response channel: a byte in bits 7:0 with bits 31:8 zero, or a word (30_encoding.md
R80). -/
def ResItem.toWord : ResItem → Word
  | .byte b => byteWord b
  | .word w => w

/-- The words of a response (30_encoding.md R70, R79): the status word, then `RLEN` item words; none after an error. -/
def responseWords (op : Opcode) : Answer → List Word
  | .ok items => statusWord false op 0 (BitVec.ofNat 8 items.length) :: items.map ResItem.toWord
  | .err e => [statusWord true op e.code 0]

/-- `busy`: 1 from the acceptance of a header until the last word of its response is taken (70_reset_and_hazards.md
R210, R202). -/
def State.busy (s : State) : Bool := !s.rx.isEmpty || decide (s.ph ≠ .idle) || !s.rspOut.isEmpty

/-- `cmd_ready`: the block takes an offered word (70_reset_and_hazards.md R202, R210). It takes none while reset is
asserted (entry 9). -/
def State.cmdReady (s : State) : Bool := !s.rst && decide (s.ph = .idle) && s.rspOut.isEmpty

/-- `rsp_valid`: the block offers a response word (70_reset_and_hazards.md R204, R210). It offers none while reset is asserted:
"no further response word" (R200). -/
def State.rspValid (s : State) : Bool := !s.rst && !s.rspOut.isEmpty

/-- `rsp_data`: the response word offered, if any; it counts while `rsp_valid` is 1 (70_reset_and_hazards.md R210). -/
def State.rspData (s : State) : Option Word := s.rspOut.head?

end Sys2Proof.Machine
end

