-- ==== Sys2Proof/Machine/Operands.lean ====
section
/-! DEFINITION. Operand forms: byte order and the conversions between bytes and words (20_memory.md R51 to R53, R67), and
the views of the operand buffer each command takes (R50). -/

namespace Sys2Proof.Machine

/-- `BE32`: four bytes to a word, the first byte most significant (20_memory.md R51). -/
def be32 (b0 b1 b2 b3 : Byte) : Word := b0 ++ b1 ++ b2 ++ b3

/-- `BYTES32(w) = [w[31:24], w[23:16], w[15:8], w[7:0]]` (20_memory.md R51). -/
def bytes32 (w : Word) : List Byte :=
  [w.extractLsb' 24 8, w.extractLsb' 16 8, w.extractLsb' 8 8, w.extractLsb' 0 8]

/-- `MemRead(a, 4)` on the byte items of an operand buffer (20_memory.md R51, R67); `none` where it would reach an item at
or beyond `LEN`, which no command does. -/
def memRead (b : List Byte) (a : Nat) : Option Word :=
  match b.drop a with
  | b0 :: b1 :: b2 :: b3 :: _ => some (be32 b0 b1 b2 b3)
  | _ => none

/-- `UNPACK(b)[i] = MemRead(4i, 4)` for `i` from 0 to `len(b)/4 - 1` (20_memory.md R52). -/
def unpack (b : List Byte) : List Word := (List.range (b.length / 4)).filterMap (fun i => memRead b (4 * i))

/-- `MemWrite(a, 4, w)` on a result buffer whose items below `a` are there already (00_scope.md R10, 20_memory.md R67:
the only uses are at 0 and then at 4). -/
def memWrite (ob : List ResItem) (a : Nat) (w : Word) : List ResItem :=
  ob.take a ++ (bytes32 w).map .byte ++ ob.drop (a + 4)

/-- `PACK`: `MemWrite(0, 4, y')` and `MemWrite(4, 4, z')` (20_memory.md R53). -/
def pack (b : Block) : List ResItem := memWrite (memWrite [] 0 b.y) 4 b.z

/-- The result items of a word-form transform: the words `y'` then `z'` (30_encoding.md R80). -/
def wordItems (b : Block) : List ResItem := [.word b.y, .word b.z]

/-- A byte item's byte. -/
def OpItem.byte? : OpItem → Option Byte
  | .byte b => some b
  | .word _ => none
  | .elem _ => none

/-- A word item's word. -/
def OpItem.word? : OpItem → Option Word
  | .byte _ => none
  | .word w => some w
  | .elem _ => none

/-- A key element item's element. -/
def OpItem.elem? : OpItem → Option KeyElem
  | .byte _ => none
  | .word _ => none
  | .elem e => some e

/-- The byte items of `IB` (`NEW.BYTES`, `ENCRYPT`, `DECRYPT`; 20_memory.md R50). -/
def State.ibBytes (s : State) : List Byte := s.ib.filterMap OpItem.byte?

/-- The word items of `IB` (`ENCRYPT_BLOCK`, `DECRYPT_BLOCK`; 20_memory.md R50, R66). -/
def State.ibWords (s : State) : List Word := s.ib.filterMap OpItem.word?

/-- The key elements of `IB` (`NEW.WORDS`; 20_memory.md R50). -/
def State.ibElems (s : State) : List KeyElem := s.ib.filterMap OpItem.elem?

/-- The key register file as the sequence of words BlockCodec receives: always four (41_block_codec.md R129). -/
def Key.words (k : Key) : List Word := [k.x 0, k.x 1, k.x 2, k.x 3]

end Sys2Proof.Machine
end

