-- ==== Sys2Proof/Machine/Ops.lean ====
section
/-! DEFINITION. The operations every command is made of: filling the operand buffer, ending with an error or with result
items, writing the instance, drawing free values, and the reset event. -/

namespace Sys2Proof.Machine

/-- The command's items are in `IB`, `IB[0]` first (20_memory.md R50). -/
def State.loadIB (s : State) (items : List OpItem) : State := { s with ib := items }

/-- The result items a command leaves in `OB`: none after an error (10_state.md R27, 30_encoding.md R79). -/
def Answer.items : Answer → List ResItem
  | .ok items => items
  | .err _ => []

/-- The one way a command ends: its response, and nothing else (60_exceptions.md R170). The response's words go behind
those already offered: the block "does not drop or overwrite a response" (70_reset_and_hazards.md R204; entry 18). -/
def State.answer (s : State) (op : Opcode) (a : Answer) : State :=
  { s with ob := a.items, rspOut := s.rspOut ++ responseWords op a }

/-- `respond(items)` (00_scope.md R10). -/
def State.respond (s : State) (op : Opcode) (items : List ResItem) : State := s.answer op (.ok items)

/-- `raise E`, the block's whole "trap entry" (00_scope.md R10, 60_exceptions.md R175): nothing is saved, no mode changes,
control goes nowhere, no register is written; the response carries the code. There is no return from it: "nothing to
restore" (R176). -/
def State.raise (s : State) (op : Opcode) (e : ErrName) : State := s.answer op (.err e)

/-- The words spell no command: `IllegalCommand`, all state unchanged (60_exceptions.md R184, 30_encoding.md R78). -/
def illegalCommand (op : Opcode) (s : State) : Result := .next (s.raise op .illegalCommand)

/-- The five registers of a successful `NEW.*`, "written together" (40_key_schedule.md R108, 20_memory.md R56). -/
def State.writeInstance (s : State) (key : Key) (n : Word) : State := { s with k := key, rounds := n, cfg := true }

/-- "After this step `Y`, `Z`, `SUM`, `RC`, `OPL` are unspecified" (41_block_codec.md R136): five fresh free values
(entry 4). -/
def State.forgetWorking (s : State) : State :=
  { s with
    y := Config.freeWord s.freeCount
    z := Config.freeWord (s.freeCount + 1)
    sum := Config.freeWord (s.freeCount + 2)
    rc := Config.freeWord (s.freeCount + 3)
    opl := Config.freeOpcode s.freeCount
    freeCount := s.freeCount + 4 }

/-- `K[0..3]` and `ROUNDS` after a reset event: unspecified (10_state.md R31; entry 3). -/
def State.forgetInstance (s : State) : State :=
  { s with
    k := ⟨Config.freeWord s.freeCount, Config.freeWord (s.freeCount + 1), Config.freeWord (s.freeCount + 2),
      Config.freeWord (s.freeCount + 3)⟩
    rounds := Config.freeWord (s.freeCount + 4)
    freeCount := s.freeCount + 5 }

/-- The content of `IB` and `OB` outside a command: "unspecified and not observable" (10_state.md R27; entry 5), within
the buffers' bounds. -/
def State.forgetBuffers (s : State) : State :=
  { s with
    ib := (Config.freeOperands s.freeCount).take Config.maxItems
    ob := (Config.freeResults s.freeCount).take Config.maxResults
    freeCount := s.freeCount + 1 }

/-- The reset event (70_reset_and_hazards.md R200): `CFG = 0`, `PH = IDLE`, the command in flight abandoned with no (further)
response word, the channel at a header boundary, everything else of the block unspecified (10_state.md R31; entry 3). The
host's side stays as the host has it (entry 9). -/
def State.resetEvent (s : State) : State :=
  { s.forgetWorking.forgetInstance.forgetBuffers with cfg := false, ph := .idle, rx := [], rspOut := [] }

end Sys2Proof.Machine
end

