-- ==== Sys2Proof/Machine/BlockCodec.lean ====
section
/-! DEFINITION. BlockCodec (41_block_codec.md): arithmetic, the mixing function, one round each way, the two transforms,
the boundary check, the start step, and the word-level commands ENCRYPT_BLOCK and DECRYPT_BLOCK. -/

namespace Sys2Proof.Machine

/-! ## Arithmetic (R121) -/

/-- `ADD(a, b) = (a + b) mod 2^32`. -/
def add32 (a b : Word) : Word := a + b

/-- `SUB(a, b) = (a - b) mod 2^32`. -/
def sub32 (a b : Word) : Word := a - b

/-- `MUL(a, n) = (a * n) mod 2^32`, `n` any natural. -/
def mul32 (a : Word) (n : Nat) : Word := BitVec.ofNat 32 (a.toNat * n)

/-- `SHL4(v)`: bits 31:28 of `v` are lost. -/
def shl4 (v : Word) : Word := v <<< 4

/-- `SHR5(v)`: a logical shift, bits 4:0 of `v` are lost. -/
def shr5 (v : Word) : Word := v >>> 5

/-- `XOR(a, b)`. -/
def xor32 (a b : Word) : Word := a ^^^ b

/-! ## Rounds (R123, R124, R126) -/

/-- `MIX(v, sum, ka, kb)` (R123). -/
def mix (v sum ka kb : Word) : Word :=
  xor32 (xor32 (add32 (shl4 v) ka) (add32 v sum)) (add32 (shr5 v) kb)

/-- `ENC_ROUND` (R124): the update of `z` uses the new `y`. -/
def encRound (b : Block) (sum : Word) (k : Key) : Block :=
  let y1 := add32 b.y (mix b.z sum (k.x 0) (k.x 1))
  ⟨y1, add32 b.z (mix y1 sum (k.x 2) (k.x 3))⟩

/-- `DEC_ROUND` (R126): `z` first, then `y` from the new `z`. -/
def decRound (b : Block) (sum : Word) (k : Key) : Block :=
  let z1 := sub32 b.z (mix b.y sum (k.x 2) (k.x 3))
  ⟨sub32 b.y (mix z1 sum (k.x 0) (k.x 1)), z1⟩

/-! ## Transforms (R125, R127, R132) -/

/-- The forward loop: `sum` is increased before the round uses it (R125). -/
def encLoop (k : Key) : Nat → Word → Block → Block
  | 0, _, b => b
  | n + 1, sum, b => encLoop k n (add32 sum Config.delta) (encRound b (add32 sum Config.delta) k)

/-- `TEA_ENC(b, k, rounds)` (R125), for every natural number of rounds (R132). -/
def teaEnc (b : Block) (k : Key) (rounds : Nat) : Block := encLoop k rounds 0 b

/-- The inverse loop: `sum` is decreased after the round has used it (R127). -/
def decLoop (k : Key) : Nat → Word → Block → Block
  | 0, _, b => b
  | n + 1, sum, b => decLoop k n (sub32 sum Config.delta) (decRound b sum k)

/-- `TEA_DEC(b, k, rounds)` (R127), for every natural number of rounds (R132). -/
def teaDec (b : Block) (k : Key) (rounds : Nat) : Block := decLoop k rounds (mul32 Config.delta rounds) b

/-! ## Boundary check and start step (R129, R133) -/

/-- BlockCodec's boundary check (R129): the block has exactly 2 words, the key exactly 4. -/
def codecCheck (key block : List Word) : Except ErrName Block :=
  match block with
  | [y, z] => if key.length = Config.keyWords then .ok ⟨y, z⟩ else .error .malformedKey
  | _ => .error .malformedBlock

/-- Which transform a command asks for. -/
inductive Direction where
  | forward
  | inverse
  deriving DecidableEq, Repr

/-- The phase a transform runs in (R133). -/
def Direction.phase : Direction → Phase
  | .forward => .runEnc
  | .inverse => .runDec

/-- `SUM` at the start of a transform (R133). -/
def Direction.startSum : Direction → Word → Word
  | .forward, _ => 0
  | .inverse, rounds => mul32 Config.delta rounds.toNat

/-- The transform itself, as a function (R125, R127). -/
def Direction.transform : Direction → Block → Key → Nat → Block
  | .forward => teaEnc
  | .inverse => teaDec

/-- The start step (R133). -/
def State.startStep (s : State) (d : Direction) (op : Opcode) (b : Block) : State :=
  { s with y := b.y, z := b.z, sum := d.startSum s.rounds, rc := 0, opl := op, ph := d.phase }

/-- The block reaches the codec: the boundary check, then the start step (R129, R133). -/
def enterCodec (d : Direction) (op : Opcode) (block : List Word) (s : State) : Result :=
  match codecCheck s.k.words block with
  | .ok b => .next (s.startStep d op b)
  | .error e => .next (s.raise op e)

/-- A word-form transform: an instance exists, then the boundary check (R138, 42_cipher_facade.md R154). -/
def transformWords (d : Direction) (op : Opcode) (w : List Word) (s : State) : Result :=
  let s1 := s.loadIB (w.map .word)
  if s1.cfg then enterCodec d op s1.ibWords s1 else .next (s1.raise op .notConfigured)

/-- `ENCRYPT_BLOCK(w)` (R138). -/
def execEncryptBlock (w : List Word) (s : State) : Result := transformWords .forward 6 w s

/-- `DECRYPT_BLOCK(w)` (R139). -/
def execDecryptBlock (w : List Word) (s : State) : Result := transformWords .inverse 7 w s

end Sys2Proof.Machine
end

