-- ==== Sys2Proof/Machine/Facade.lean ====
section
/-! DEFINITION. The Cipher facade (42_cipher_facade.md): KEYSIZE, BLOCKSIZE, ENCRYPT, DECRYPT. -/

namespace Sys2Proof.Machine

/-- A size query: it reads no register and answers one word (R150, R151). -/
def sizeQuery (op : Opcode) (size : Nat) (s : State) : Result :=
  .next ((s.loadIB []).respond op [.word (BitVec.ofNat 32 size)])

/-- `KEYSIZE` (R150). -/
def execKeysize (s : State) : Result := sizeQuery 1 Config.keySize s

/-- `BLOCKSIZE` (R151). -/
def execBlocksize (s : State) : Result := sizeQuery 2 Config.blockSize s

/-- A byte-form transform: the checks of R154 in their order, then `UNPACK` and the codec (R152, R153). -/
def transformBytes (d : Direction) (op : Opcode) (b : List Byte) (s : State) : Result :=
  let s1 := s.loadIB (b.map .byte)
  if s1.cfg then
    if s1.ibBytes.length = Config.blockSize then enterCodec d op (unpack s1.ibBytes) s1
    else .next (s1.raise op .invalidBlockLength)
  else .next (s1.raise op .notConfigured)

/-- `ENCRYPT(b)` (R152). -/
def execEncrypt (b : List Byte) (s : State) : Result := transformBytes .forward 4 b s

/-- `DECRYPT(b)` (R153). -/
def execDecrypt (b : List Byte) (s : State) : Result := transformBytes .inverse 5 b s

end Sys2Proof.Machine
end

