-- ==== Sys2Proof/Machine/KeySchedule.lean ====
section
/-! DEFINITION. key_schedule_normalizer and the commands NEW.BYTES and NEW.WORDS (40_key_schedule.md). -/

namespace Sys2Proof.Machine

/-- `KS_BYTES`, key from raw bytes (R101). -/
def ksBytes (b : List Byte) : Except ErrName Key :=
  if b.length = Config.keySize then
    match unpack b with
    | [k0, k1, k2, k3] => .ok ⟨k0, k1, k2, k3⟩
    | _ => .error .invalidKeyLength
  else .error .invalidKeyLength

/-- `KS_WORDS`, key from explicit words; the count is checked before the elements (R102). -/
def ksWords (e : List KeyElem) : Except ErrName Key :=
  match e with
  | [.int v0, .int v1, .int v2, .int v3] => .ok ⟨v0, v1, v2, v3⟩
  | [_, _, _, _] => .error .invalidKeyElement
  | _ => .error .invalidKeyShape

/-- `ROUNDS_OF`, the validation of the rounds operand (R105). -/
def roundsOf (r : RoundsArg) : Except ErrName Word :=
  match r with
  | .absent => .ok Config.defaultRounds
  | .int v => if 1 ≤ v then .ok (BitVec.ofInt 32 v) else .error .invalidRounds
  | .nonInt => .error .invalidRounds

/-- The checks of `NEW.*` in their order: the key, then the rounds operand (R108). -/
def checkNew (key : Except ErrName Key) (r : RoundsArg) : Except ErrName (Key × Word) :=
  match key with
  | .error e => .error e
  | .ok k =>
    match roundsOf r with
    | .error e => .error e
    | .ok n => .ok (k, n)

/-- What both `NEW.*` do once the key is normalised: all five registers or none (R108). -/
def finishNew (key : Except ErrName Key) (r : RoundsArg) (s : State) : Result :=
  match checkNew key r with
  | .ok (k, n) => .next ((s.writeInstance k n).respond 3 [])
  | .error e => .next (s.raise 3 e)

/-- `NEW.BYTES(key, r)` (R106). -/
def execNewBytes (key : List Byte) (r : RoundsArg) (s : State) : Result :=
  let s1 := s.loadIB (key.map .byte)
  finishNew (ksBytes s1.ibBytes) r s1

/-- `NEW.WORDS(key, r)` (R107). -/
def execNewWords (key : List KeyElem) (r : RoundsArg) (s : State) : Result :=
  let s1 := s.loadIB (key.map .elem)
  finishNew (ksWords s1.ibElems) r s1

end Sys2Proof.Machine
end

