-- ==== Sys2Proof/Machine/Dispatch.lean ====
section
/-! DEFINITION. One arm per command, each one direct call of its meaning. -/

namespace Sys2Proof.Machine

def exec (i : Instr) (s : State) : Host.Outcome State Fault Refusal :=
  match i with
  | .keysize => Sys2Proof.Machine.execKeysize s
  | .blocksize => Sys2Proof.Machine.execBlocksize s
  | .newBytes key r => Sys2Proof.Machine.execNewBytes key r s
  | .newWords key r => Sys2Proof.Machine.execNewWords key r s
  | .encrypt b => Sys2Proof.Machine.execEncrypt b s
  | .decrypt b => Sys2Proof.Machine.execDecrypt b s
  | .encryptBlock w => Sys2Proof.Machine.execEncryptBlock w s
  | .decryptBlock w => Sys2Proof.Machine.execDecryptBlock w s

end Sys2Proof.Machine
end

