-- ==== Sys2Proof/Machine/Sequencer.lean ====
section
/-! DEFINITION. The sequencer's steps while a transform runs (41_block_codec.md R134 to R136). -/

namespace Sys2Proof.Machine

/-- The working block `(Y, Z)`. -/
def State.block (s : State) : Block := ⟨s.y, s.z⟩

/-- The forward round step (R134). -/
def State.forwardRound (s : State) : State :=
  let sum := add32 s.sum Config.delta
  let b := encRound s.block sum s.k
  { s with sum := sum, y := b.y, z := b.z, rc := s.rc + 1 }

/-- The inverse round step (R135). -/
def State.inverseRound (s : State) : State :=
  let b := decRound s.block s.sum s.k
  { s with y := b.y, z := b.z, sum := sub32 s.sum Config.delta, rc := s.rc + 1 }

/-- The result items of the transform whose opcode is `opl` (R136): bytes for ENCRYPT and DECRYPT, words for ENCRYPT_BLOCK
and DECRYPT_BLOCK; `none` for the opcodes the start step never leaves. -/
def resultItems (opl : Opcode) (b : Block) : Option (List ResItem) :=
  if opl = 4 ∨ opl = 5 then some (pack b)
  else if opl = 6 ∨ opl = 7 then some (wordItems b)
  else none

/-- The completion step (R136): the response from `(Y, Z)`, then `PH <- IDLE`; the working registers are then unspecified. -/
def completionStep (s : State) : Result :=
  match resultItems s.opl s.block with
  | some items => .next { (s.respond s.opl items).forgetWorking with ph := .idle }
  | none => .fault .oplNotTransform

/-- A step in a running phase (R134 to R136): a round while `RC < ROUNDS`, the completion when `RC = ROUNDS`. `RC` above
`ROUNDS` is never taken (10_state.md R26). -/
def runningStep (round : State → State) (s : State) : Result :=
  if s.rc.toNat < s.rounds.toNat then .next (round s)
  else if s.rc = s.rounds then completionStep s
  else .fault .rcPastRounds

end Sys2Proof.Machine
end

