-- ==== Sys2Proof/Machine/Channel.lean ====
section
/-! DEFINITION. The two channels in phase IDLE: delivering a command word by word, executing it when its last word is
transferred, and handing its response over (30_encoding.md R70, R72, 70_reset_and_hazards.md R202 to R204, R210). -/

namespace Sys2Proof.Machine

/-- A command is delivered: it is decoded and executed; words that spell no command end with `IllegalCommand`
(30_encoding.md R76, R78). -/
def deliver (h : Word) (ws : List Word) (s : State) : Result :=
  match decode h ws with
  | .ok i => exec i s
  | .error _ => illegalCommand (opField h) s

/-- The header of the command in delivery and its following words so far, once the word `w` is transferred. -/
def frameWith (rx : List Word) (w : Word) : Word × List Word :=
  match rx with
  | [] => (w, [])
  | h :: ws => (h, ws ++ [w])

/-- The word `w` is transferred (30_encoding.md R72): the command is delivered with its last following word. -/
def acceptWord (w : Word) (s : State) : Result :=
  let f := frameWith s.rx w
  if f.2.length < followCount f.1 then .next { s with rx := f.1 :: f.2 }
  else deliver f.1 f.2 { s with rx := [] }

/-- The response word `w` is taken, `rest` stay offered (70_reset_and_hazards.md R204); with the last one the command is
over and what the buffers hold is unspecified (10_state.md R27). -/
def takeResponse (w : Word) (rest : List Word) (s : State) : State :=
  let s1 := { s with rspOut := rest, rspTaken := s.rspTaken ++ [w] }
  match rest with
  | [] => s1.forgetBuffers
  | _ :: _ => s1

/-- A step in phase IDLE: a response word is handed over while one is offered; else a command word is taken; else the block
waits, "without limit" (70_reset_and_hazards.md R202 to R204; entry 8). -/
def idleStep (s : State) : Result :=
  match s.rspOut with
  | w :: rest => if s.rspReady then .next (takeResponse w rest s) else .next s
  | [] =>
    match s.cmdIn with
    | w :: rest => acceptWord w { s with cmdIn := rest }
    | [] => .next s

end Sys2Proof.Machine
end

