-- ==== Sys2Proof/Machine/Step.lean ====
section
/-! DEFINITION. One step of the block, several steps, and placing an instruction where the next step fetches it. -/

namespace Sys2Proof.Machine

/-- One step: the reset event while `rst` is asserted (70_reset_and_hazards.md R200), else the step of the phase
(10_state.md R26). -/
def step (s : State) : Host.Outcome State Fault Refusal :=
  if s.rst then .next s.resetEvent
  else
    match s.ph with
    | .idle => idleStep s
    | .runEnc => runningStep State.forwardRound s
    | .runDec => runningStep State.inverseRound s

/-- `n` steps, stopping at the first that is no next state. -/
def steps : Nat → State → Host.Outcome State Fault Refusal
  | 0, s => .next s
  | n + 1, s =>
    match step s with
    | .next t => steps n t
    | .fault r => .fault r
    | .refused r => .refused r

/-- The command whose bits are `w`, placed where `step` takes its next command: all its words but the last are transferred
already, and the last is the next word the host offers, the block being ready for it (entry 7). -/
def State.withFetchWord (s : State) (nbits w : Nat) : State :=
  let f := tableFrame nbits w
  let ws := f.1 :: f.2
  { s with rst := false, ph := .idle, rspOut := [], rx := ws.dropLast, cmdIn := ws.getLast?.toList ++ s.cmdIn }

end Sys2Proof.Machine
end

