-- ==== Sys2Proof/Machine/Environment.lean ====
section
/-! DEFINITION. What the host may do to the block, between any two of its steps (70_reset_and_hazards.md R209): offer command
words, make `rsp_ready` 0 or 1, make `rst` 0 or 1. "Nothing else reaches the block's state." -/

namespace Sys2Proof.Machine

/-- One move of the host. -/
inductive HostMove where
  /-- Offer more words, behind those already offered. -/
  | offer (ws : List Word)
  /-- Set `rsp_ready`. -/
  | setRspReady (b : Bool)
  /-- Set `rst`. -/
  | setRst (b : Bool)
  deriving DecidableEq, Repr

/-- The effect of a host's move: on the ports only. -/
def hostMove (m : HostMove) (s : State) : State :=
  match m with
  | .offer ws => { s with cmdIn := s.cmdIn ++ ws }
  | .setRspReady b => { s with rspReady := b }
  | .setRst b => { s with rst := b }

/-- Whose turn it is: a step of the block or a move of the host. -/
inductive Event where
  | block
  | host (m : HostMove)
  deriving DecidableEq, Repr

/-- A run under any interleaving of the block's steps and the host's moves. -/
def runEvents : List Event → State → Host.Outcome State Fault Refusal
  | [], s => .next s
  | .host m :: es, s => runEvents es (hostMove m s)
  | .block :: es, s =>
    match step s with
    | .next t => runEvents es t
    | .fault r => .fault r
    | .refused r => .refused r

end Sys2Proof.Machine
end

