-- ==== Sys2Proof/Machine/Transaction.lean ====
section
/-! DEFINITION. The transaction-level view of the commands (92_eei_decisions.md D1, 10_state.md R20): one command, one answer,
over `K`, `ROUNDS` and `CFG` alone, with `TEA_ENC` and `TEA_DEC` applied in one step (41_block_codec.md section 4). The machine
of Step.lean is the sequencer view; statements compare the two. -/

namespace Sys2Proof.Machine

/-- What "carries information from one command to the next" (10_state.md R20): the source's Cipher. -/
structure Cipher where
  k : Key
  rounds : Word
  cfg : Bool
  deriving DecidableEq, Repr

/-- The Cipher a state holds. -/
def State.cipher (s : State) : Cipher := ⟨s.k, s.rounds, s.cfg⟩

/-- `NEW.*` at the transaction level (40_key_schedule.md R106 to R108). -/
def transactNew (key : Except ErrName Key) (r : RoundsArg) (c : Cipher) : Cipher × Answer :=
  match checkNew key r with
  | .ok (k, n) => (⟨k, n, true⟩, .ok [])
  | .error e => (c, .err e)

/-- The answer of the word-form transforms (41_block_codec.md R138, R139). -/
def answerWords (d : Direction) (w : List Word) (c : Cipher) : Answer :=
  if c.cfg then
    match codecCheck c.k.words w with
    | .ok b => .ok (wordItems (d.transform b c.k c.rounds.toNat))
    | .error e => .err e
  else .err .notConfigured

/-- The answer of the byte-form transforms (42_cipher_facade.md R152, R153). -/
def answerBytes (d : Direction) (b : List Byte) (c : Cipher) : Answer :=
  if c.cfg then
    if b.length = Config.blockSize then
      match codecCheck c.k.words (unpack b) with
      | .ok blk => .ok (pack (d.transform blk c.k c.rounds.toNat))
      | .error e => .err e
    else .err .invalidBlockLength
  else .err .notConfigured

/-- One command at the transaction level: the Cipher after it and its answer. -/
def transact (i : Instr) (c : Cipher) : Cipher × Answer :=
  match i with
  | .keysize => (c, .ok [.word (BitVec.ofNat 32 Config.keySize)])
  | .blocksize => (c, .ok [.word (BitVec.ofNat 32 Config.blockSize)])
  | .newBytes key r => transactNew (ksBytes key) r c
  | .newWords key r => transactNew (ksWords key) r c
  | .encrypt b => (c, answerBytes .forward b c)
  | .decrypt b => (c, answerBytes .inverse b c)
  | .encryptBlock w => (c, answerWords .forward w c)
  | .decryptBlock w => (c, answerWords .inverse w c)

/-- The words of one command's response at the transaction level. -/
def transactWords (i : Instr) (c : Cipher) : List Word := responseWords i.opcode (transact i c).2

/-- One command as it comes over the channel, a header and its following words: words that spell no command answer
`IllegalCommand` and change nothing (60_exceptions.md R184). -/
def transactFrame (h : Word) (ws : List Word) (c : Cipher) : Cipher × List Word :=
  match decode h ws with
  | .ok i => ((transact i c).1, transactWords i c)
  | .error _ => (c, responseWords (opField h) (.err .illegalCommand))

/-- A stream of commands, each a header and its following words, in order (20_memory.md R59): the Cipher after it and all
the response words. -/
def session : List (Word × List Word) → Cipher → Cipher × List Word
  | [], c => (c, [])
  | f :: fs, c =>
    let a := transactFrame f.1 f.2 c
    let r := session fs a.1
    (r.1, a.2 ++ r.2)

/-- Is it one of the four transform commands? -/
def isTransform : Instr → Bool
  | .keysize => false
  | .blocksize => false
  | .newBytes _ _ => false
  | .newWords _ _ => false
  | .encrypt _ => true
  | .decrypt _ => true
  | .encryptBlock _ => true
  | .decryptBlock _ => true

/-- Is it one of the two `NEW.*` commands? -/
def isNew : Instr → Bool
  | .keysize => false
  | .blocksize => false
  | .newBytes _ _ => true
  | .newWords _ _ => true
  | .encrypt _ => false
  | .decrypt _ => false
  | .encryptBlock _ => false
  | .decryptBlock _ => false

end Sys2Proof.Machine
end

