-- ==== Sys2Proof/Safety.lean ====
section
/-! DEFINITION. What counts as a safe run: the invariant of the machine, and the states in which the block can take a command. -/

namespace Sys2Proof.Machine

/-- While `CFG = 1`, `ROUNDS` is in 1 to 2^31 - 1 (10_state.md R22). -/
def State.RoundsInRange (s : State) : Prop := s.cfg = true → 1 ≤ s.rounds.toNat ∧ s.rounds.toNat ≤ 2147483647

/-- What holds while a transform runs (10_state.md R26, 41_block_codec.md R128, R133 to R137): an instance exists, `RC` is at
most `ROUNDS`, `OPL` and `SUM` are those of the phase's transform after `RC` rounds, and neither channel is in use. -/
def State.SequencerOk (s : State) : Prop :=
  match s.ph with
  | .idle => True
  | .runEnc =>
    s.cfg = true ∧ s.rc.toNat ≤ s.rounds.toNat ∧ (s.opl = 4 ∨ s.opl = 6) ∧ s.sum = mul32 Config.delta s.rc.toNat ∧
      s.rx = [] ∧ s.rspOut = []
  | .runDec =>
    s.cfg = true ∧ s.rc.toNat ≤ s.rounds.toNat ∧ (s.opl = 5 ∨ s.opl = 7) ∧
      s.sum = mul32 Config.delta (s.rounds.toNat - s.rc.toNat) ∧ s.rx = [] ∧ s.rspOut = []

/-- What is in delivery is a part of one command, short of its last word, and is in delivery only while no response is
pending (30_encoding.md R72, 70_reset_and_hazards.md R202). -/
def State.ChannelsOk (s : State) : Prop :=
  (∀ h ws, s.rx = h :: ws → ws.length < followCount h ∧ s.rspOut = []) ∧ s.rspOut.length ≤ 9

/-- The buffers hold at most the items the spec gives them: `IB[0..30]`, `OB[0..7]` (10_state.md R20). -/
def State.BuffersOk (s : State) : Prop := s.ib.length ≤ 31 ∧ s.ob.length ≤ 8

/-- The invariant of the machine. -/
structure State.Inv (s : State) : Prop where
  rounds : s.RoundsInRange
  sequencer : s.SequencerOk
  channels : s.ChannelsOk
  buffers : s.BuffersOk

/-- The block can take a header: no reset, no command in progress, no response pending (70_reset_and_hazards.md R202). -/
def State.Ready (s : State) : Prop := s.rst = false ∧ s.ph = .idle ∧ s.rx = [] ∧ s.rspOut = []

/-- A rounds operand `ROUNDS_OF` refuses (40_key_schedule.md R105): not an integer, or not positive. -/
def badRounds (r : RoundsArg) : Prop := r = .nonInt ∨ ∃ v, r = .int v ∧ v ≤ 0

/-- The command ends with an error (60_exceptions.md R170). -/
def Fails (i : Instr) (c : Cipher) : Prop := ∃ e, (transact i c).2 = .err e

/-- The words on the command channel of a stream of commands, each a header and its following words (30_encoding.md R70). -/
def channelWords (fs : List (Word × List Word)) : List Word := fs.flatMap (fun f => f.1 :: f.2)

/-- Every header is followed by exactly its `F(H)` words (30_encoding.md R72). -/
def wholeFrames (fs : List (Word × List Word)) : Prop := ∀ f ∈ fs, f.2.length = followCount f.1

/-- The item words among a command's following words, where `KF = 0` (30_encoding.md R72). -/
def itemWords (h : Word) (ws : List Word) : List Word := ws.drop (rpBit h).toNat

/-- Every item word is a byte item: bits 31:8 are zero (30_encoding.md R75). -/
def bytesClean (h : Word) (ws : List Word) : Prop := ∀ w ∈ itemWords h ws, w.toNat < 256

end Sys2Proof.Machine
end

