-- ==== Sys2Proof/Certificates/Slice0/Obligations.lean ====
section
/-! DEFINITION. The statements about the model. Each docstring names the sentence of the spec it formalises. -/

open Sys2Proof Sys2Proof.Machine

/-! ## Reset and the invariant -/

/-- 10_state.md section 8: after reset `CFG` is 0 and `PH` is IDLE; 70_reset_and_hazards.md section 2: the channel is at a
header boundary. Only values the spec gives are stated. -/
def Obligations.ResetIsIdleWithoutAnInstance : Prop :=
  State.reset.cfg = false ∧ State.reset.ph = .idle ∧ State.reset.rx = [] ∧ State.reset.rspOut = [] ∧
    State.reset.busy = false

/-- The state after reset meets the invariant (Safety.lean). -/
def Obligations.ResetMeetsTheInvariant : Prop := State.reset.Inv

/-- The invariant (ROUNDS in range while CFG = 1, the sequencer's registers in step, the channels interlocked, the buffers
within their bounds) is kept by every step from every state that meets it. -/
def Obligations.EveryStepKeepsTheInvariant : Prop := ∀ s t : State, s.Inv → step s = .next t → t.Inv

/-- 60_exceptions.md section 6: no state is a fault state. From every state that meets the invariant a step answers a next
state. -/
def Obligations.NoStepStops : Prop := ∀ s : State, s.Inv → ∃ t, step s = .next t

/-- 70_reset_and_hazards.md section 5: whatever the host does and whenever it does it, the block goes on and keeps the
invariant. -/
def Obligations.EveryInterleavingGoesOn : Prop :=
  ∀ (es : List Event) (s : State), s.Inv → ∃ t, runEvents es s = .next t ∧ t.Inv

/-- R200: while `rst` is asserted the command in flight is abandoned, no response word is left, the channel is at a header
boundary, `CFG = 0` and `PH = IDLE`, whatever the state was; nothing but reset clears `CFG`. -/
def Obligations.ResetAbandonsWhateverIsInFlight : Prop :=
  (∀ s : State, s.rst = true → ∃ t, step s = .next t ∧ t.cfg = false ∧ t.ph = .idle ∧ t.rx = [] ∧ t.rspOut = [] ∧
      t.busy = false) ∧
    ∀ s t : State, step s = .next t → s.cfg = true → t.cfg = false → s.rst = true

/-- 10_state.md section 4: `CFG` is set by a successful `NEW.*` and by nothing else: a step that sets it delivers one. -/
def Obligations.OnlyASuccessfulNewSetsCfg : Prop :=
  ∀ s t : State, step s = .next t → s.cfg = false → t.cfg = true →
    s.cmdReady = true ∧ ∃ w rest i, s.cmdIn = w :: rest ∧
      decode (frameWith s.rx w).1 (frameWith s.rx w).2 = .ok i ∧ isNew i = true ∧ (transact i s.cipher).2 = .ok []

/-! ## The instance -/

/-- R29: KEYSIZE, BLOCKSIZE, the four transforms, every failing command and every illegal command write none of `K`, `ROUNDS`,
`CFG`; and whatever step of the block changes one of them, reset apart, delivers a `NEW.*` that succeeds. -/
def Obligations.OnlyASuccessfulNewWritesTheInstance : Prop :=
  (∀ (i : Instr) (s t : State), exec i s = .next t → (isNew i = false ∨ Fails i s.cipher) → t.cipher = s.cipher) ∧
    (∀ (op : Opcode) (s t : State), illegalCommand op s = .next t → t.cipher = s.cipher) ∧
    ∀ s t : State, step s = .next t → s.rst = false → t.cipher ≠ s.cipher →
      s.cmdReady = true ∧ ∃ w rest i, s.cmdIn = w :: rest ∧
        decode (frameWith s.rx w).1 (frameWith s.rx w).2 = .ok i ∧ isNew i = true ∧ (transact i s.cipher).2 = .ok []

/-- 40_key_schedule.md section 3: an omitted round count and an explicit 32 are the same command in effect, for both key
forms. -/
def Obligations.OmittedRoundsAreThirtyTwo : Prop :=
  (∀ (key : List Byte) (s : State), exec (.newBytes key .absent) s = exec (.newBytes key (.int 32)) s) ∧
    ∀ (key : List KeyElem) (s : State), exec (.newWords key .absent) s = exec (.newWords key (.int 32)) s

/-! ## Arithmetic, rounds and transforms -/

/-- R121: the six operations, each modulo 2^32, with logical shifts and bitwise exclusive-or. -/
def Obligations.ArithmeticIsModuloTwoToThe32 : Prop :=
  ∀ (a b : Word) (n : Nat),
    (add32 a b).toNat = (a.toNat + b.toNat) % 2 ^ 32 ∧ (sub32 a b).toNat = (a.toNat + 2 ^ 32 - b.toNat) % 2 ^ 32 ∧
      (mul32 a n).toNat = (a.toNat * n) % 2 ^ 32 ∧ (shl4 a).toNat = (a.toNat * 16) % 2 ^ 32 ∧
      (shr5 a).toNat = a.toNat / 32 ∧ ∀ i, (xor32 a b).getLsbD i = (a.getLsbD i).xor (b.getLsbD i)

/-- R123: `MIX`, with the rule's worked example. -/
def Obligations.MixIsTheExclusiveOrOfThreeSums : Prop :=
  (∀ v sum ka kb : Word,
      mix v sum ka kb = xor32 (xor32 (add32 (shl4 v) ka) (add32 v sum)) (add32 (shr5 v) kb)) ∧
    mix 0x89ABCDEF 0x9E3779B9 0x00010203 0x04050607 = 0xB50CC32D

/-- R124: the update of `z` reads the new `y`. -/
def Obligations.ForwardRoundUsesTheNewY : Prop :=
  ∀ (y z sum k0 k1 k2 k3 : Word),
    let y1 := add32 y (mix z sum k0 k1)
    encRound ⟨y, z⟩ sum ⟨k0, k1, k2, k3⟩ = ⟨y1, add32 z (mix y1 sum k2 k3)⟩

/-- 41_block_codec.md section 3: `z` first, then `y` from the new `z`; the two rounds undo each other (the rule derives
this). -/
def Obligations.InverseRoundUndoesTheForwardRound : Prop :=
  (∀ (y z sum k0 k1 k2 k3 : Word),
      let z1 := sub32 z (mix y sum k2 k3)
      decRound ⟨y, z⟩ sum ⟨k0, k1, k2, k3⟩ = ⟨sub32 y (mix z1 sum k0 k1), z1⟩) ∧
    ∀ (b : Block) (sum : Word) (k : Key),
      decRound (encRound b sum k) sum k = b ∧ encRound (decRound b sum k) sum k = b

/-- R125: `TEA_ENC` as its sequence of sums and blocks: `s_0 = 0`, `s_i = ADD(s_(i-1), DELTA)`, which is `MUL(DELTA, i)`, and
round `i` uses `s_i`; with the first and the last sum of 32 rounds. -/
def Obligations.ForwardTransformIsItsRecurrence : Prop :=
  (∀ (b : Block) (k : Key) (n : Nat), ∃ (blk : Nat → Block) (t : Nat → Word),
      blk 0 = b ∧ t 0 = 0 ∧
        (∀ i, i < n → t (i + 1) = add32 (t i) Config.delta ∧ t (i + 1) = mul32 Config.delta (i + 1) ∧
          blk (i + 1) = encRound (blk i) (t (i + 1)) k) ∧
        teaEnc b k n = blk n) ∧
    mul32 Config.delta 1 = 0x9E3779B9 ∧ mul32 Config.delta 32 = 0xC6EF3720

/-- R127: `TEA_DEC` as its sequence of blocks and sums: `t_0 = MUL(DELTA, rounds)`, round `i` uses `t_(i-1)`, which is
`MUL(DELTA, rounds - i + 1)`, and `sum` ends at 0; with the first sum of 32 rounds and of 2^32. -/
def Obligations.InverseTransformIsItsSequence : Prop :=
  (∀ (b : Block) (k : Key) (n : Nat), ∃ (blk : Nat → Block) (t : Nat → Word),
      blk 0 = b ∧ t 0 = mul32 Config.delta n ∧
        (∀ i, i < n → blk (i + 1) = decRound (blk i) (t i) k ∧ t (i + 1) = sub32 (t i) Config.delta ∧
          t (i + 1) = mul32 Config.delta (n - (i + 1))) ∧
        t n = 0 ∧ teaDec b k n = blk n) ∧
    mul32 Config.delta 32 = 0xC6EF3720 ∧ mul32 Config.delta (2 ^ 32) = 0

/-- 41_block_codec.md section 3: for every key and every number of rounds each transform permutes the blocks (the rule derives
this from the round trip). -/
def Obligations.TransformsPermuteTheBlocks : Prop :=
  ∀ (k : Key) (n : Nat), Function.Bijective (fun b => teaEnc b k n) ∧ Function.Bijective (fun b => teaDec b k n)

/-- R131: at the word level the two transforms undo each other, for every block, key and number of rounds; and for every
instance and every 8 bytes, decrypting the answer of an encryption gives the bytes back, and the other way round. -/
def Obligations.DecryptUndoesEncrypt : Prop :=
  (∀ (b : Block) (k : Key) (n : Nat), teaDec (teaEnc b k n) k n = b ∧ teaEnc (teaDec b k n) k n = b) ∧
    ∀ (c : Cipher) (b : List Byte), c.cfg = true → b.length = 8 →
      (∃ e : List Byte, e.length = 8 ∧ (transact (.encrypt b) c).2 = .ok (e.map .byte) ∧
        (transact (.decrypt e) c).2 = .ok (b.map .byte)) ∧
      ∃ d : List Byte, d.length = 8 ∧ (transact (.decrypt b) c).2 = .ok (d.map .byte) ∧
        (transact (.encrypt d) c).2 = .ok (b.map .byte)

/-! ## Byte order -/

/-- R51, R52, R53: `BE32` and `BYTES32`, first byte most significant, each the inverse of the other; `MemRead` and `MemWrite` of
four bytes; `UNPACK` of a key buffer, of a block buffer and in general; `PACK`. -/
def Obligations.WordsAreBigEndian : Prop :=
  (∀ b0 b1 b2 b3 : Byte,
      (be32 b0 b1 b2 b3).toNat = b0.toNat * 2 ^ 24 + b1.toNat * 2 ^ 16 + b2.toNat * 2 ^ 8 + b3.toNat ∧
        bytes32 (be32 b0 b1 b2 b3) = [b0, b1, b2, b3]) ∧
    (∀ w : Word, ∃ b0 b1 b2 b3, bytes32 w = [b0, b1, b2, b3] ∧ be32 b0 b1 b2 b3 = w ∧
      b0 = BitVec.ofNat 8 (w.toNat / 2 ^ 24) ∧ b1 = BitVec.ofNat 8 (w.toNat / 2 ^ 16) ∧
      b2 = BitVec.ofNat 8 (w.toNat / 2 ^ 8) ∧ b3 = BitVec.ofNat 8 w.toNat) ∧
    (∀ (pre post : List Byte) (b0 b1 b2 b3 : Byte),
      memRead (pre ++ [b0, b1, b2, b3] ++ post) pre.length = some (be32 b0 b1 b2 b3)) ∧
    (∀ (pre : List ResItem) (w : Word), memWrite pre pre.length w = pre ++ (bytes32 w).map .byte) ∧
    (∀ b0 b1 b2 b3 b4 b5 b6 b7 b8 b9 b10 b11 b12 b13 b14 b15 : Byte,
      unpack [b0, b1, b2, b3, b4, b5, b6, b7, b8, b9, b10, b11, b12, b13, b14, b15] =
        [be32 b0 b1 b2 b3, be32 b4 b5 b6 b7, be32 b8 b9 b10 b11, be32 b12 b13 b14 b15]) ∧
    (∀ b0 b1 b2 b3 b4 b5 b6 b7 : Byte,
      unpack [b0, b1, b2, b3, b4, b5, b6, b7] = [be32 b0 b1 b2 b3, be32 b4 b5 b6 b7]) ∧
    (∀ (b : List Byte) (i : Nat), i < b.length / 4 →
      ∃ w, memRead b (4 * i) = some w ∧ (unpack b)[i]? = some w ∧ (unpack b).length = b.length / 4) ∧
    ∀ b : Block, pack b = (bytes32 b.y ++ bytes32 b.z).map .byte

/-- 20_memory.md section 2: UNPACK and PACK are bijections between 8-byte sequences and pairs of words (the rule derives
this). -/
def Obligations.PackAndUnpackAreInverse : Prop :=
  (∀ b : List Byte, b.length = 8 → ∃ y z, unpack b = [y, z] ∧ pack ⟨y, z⟩ = b.map .byte) ∧
    ∀ w : Block, ∃ b : List Byte, b.length = 8 ∧ pack w = b.map .byte ∧ unpack b = [w.y, w.z]

/-! ## key_schedule_normalizer -/

/-- R101: exactly 16 bytes, each group of four a big-endian word, whatever the bytes. -/
def Obligations.SixteenBytesAreFourKeyWords : Prop :=
  (∀ b : List Byte, b.length ≠ 16 → ksBytes b = .error .invalidKeyLength) ∧
    ∀ b0 b1 b2 b3 b4 b5 b6 b7 b8 b9 b10 b11 b12 b13 b14 b15 : Byte,
      ksBytes [b0, b1, b2, b3, b4, b5, b6, b7, b8, b9, b10, b11, b12, b13, b14, b15] =
        .ok ⟨be32 b0 b1 b2 b3, be32 b4 b5 b6 b7, be32 b8 b9 b10 b11, be32 b12 b13 b14 b15⟩

/-- 40_key_schedule.md section 1: exactly 4 elements, counted before they are looked at, all of them integers; every word is
a legal key word. -/
def Obligations.FourIntegersAreAKey : Prop :=
  (∀ e : List KeyElem, e.length ≠ 4 → ksWords e = .error .invalidKeyShape) ∧
    (∀ e : List KeyElem, e.length = 4 → .nonInt ∈ e → ksWords e = .error .invalidKeyElement) ∧
    ∀ v0 v1 v2 v3 : Word, ksWords [.int v0, .int v1, .int v2, .int v3] = .ok ⟨v0, v1, v2, v3⟩

/-- 40_key_schedule.md section 1: a key given as 16 bytes and the same key given as words are the same key (the rule derives
this). -/
def Obligations.KeyFormsAgree : Prop :=
  ∀ b : List Byte, b.length = 16 → ∃ key, ksBytes b = .ok key ∧ ksWords ((unpack b).map .int) = .ok key

/-- R105: absent gives 32, a positive integer gives itself, every other operand is refused. -/
def Obligations.RoundsMustBePositive : Prop :=
  roundsOf .absent = .ok 32 ∧
    (∀ v : Int, 1 ≤ v → v ≤ 2147483647 → ∃ n, roundsOf (.int v) = .ok n ∧ (n.toNat : Int) = v) ∧
    (∀ v : Int, v ≤ 0 → roundsOf (.int v) = .error .invalidRounds) ∧ roundsOf .nonInt = .error .invalidRounds

/-! ## The commands

A command is executed only while no response is pending (70_reset_and_hazards.md section 3), so each statement assumes that.
Nothing is said of `OB` after a response without items, nor of the two buffers after IllegalCommand: what they hold then is the
model's choice (entry 5). -/

/-- R150, R151: the two size queries answer 16 and 8 whatever the state, with or without an instance, and write no
register; a header of theirs with any other bit set is answered IllegalCommand. -/
def Obligations.SizeQueriesAnswerTheirConstants : Prop :=
  (∀ s : State, s.rspOut = [] → exec .keysize s =
      .next { s with ib := [], ob := [.word 16], rspOut := [0x01000001, 0x00000010] }) ∧
    (∀ s : State, s.rspOut = [] → exec .blocksize s =
      .next { s with ib := [], ob := [.word 8], rspOut := [0x02000001, 0x00000008] }) ∧
    decode 0x10000000 [] = .ok .keysize ∧ decode 0x20000000 [] = .ok .blocksize ∧
    (∀ (h : Word) (ws : List Word) (s : State), s.rspOut = [] → opField h = 1 → h ≠ 0x10000000 →
      ∃ ib ob, deliver h ws s = .next { s with ib := ib, ob := ob, rspOut := [0x81000900] }) ∧
    ∀ (h : Word) (ws : List Word) (s : State), s.rspOut = [] → opField h = 2 → h ≠ 0x20000000 →
      ∃ ib ob, deliver h ws s = .next { s with ib := ib, ob := ob, rspOut := [0x82000900] }

/-- R106: NEW.BYTES with 16 bytes and a good round count writes `K`, `ROUNDS` and `CFG` together and answers success; with
another length it is InvalidKeyLength whatever the rounds; with 16 bytes and a bad round count InvalidRounds; a failure
writes nothing. With `OP = 3`, `KF = 0` the words spell this command or are answered IllegalCommand. -/
def Obligations.NewBytesLoadsTheInstanceOrFails : Prop :=
  (∀ (b0 b1 b2 b3 b4 b5 b6 b7 b8 b9 b10 b11 b12 b13 b14 b15 : Byte) (r : RoundsArg) (n : Word) (s : State),
      s.rspOut = [] → roundsOf r = .ok n →
      ∃ ob, exec (.newBytes [b0, b1, b2, b3, b4, b5, b6, b7, b8, b9, b10, b11, b12, b13, b14, b15] r) s =
        .next { s with
          k := ⟨be32 b0 b1 b2 b3, be32 b4 b5 b6 b7, be32 b8 b9 b10 b11, be32 b12 b13 b14 b15⟩
          rounds := n
          cfg := true
          ib := [b0, b1, b2, b3, b4, b5, b6, b7, b8, b9, b10, b11, b12, b13, b14, b15].map .byte
          ob := ob
          rspOut := [0x03000000] }) ∧
    (∀ (key : List Byte) (r : RoundsArg) (s : State), s.rspOut = [] → key.length ≠ 16 →
      ∃ ob, exec (.newBytes key r) s =
        .next { s with ib := key.map .byte, ob := ob, rspOut := [0x83000100] }) ∧
    (∀ (key : List Byte) (r : RoundsArg) (s : State), s.rspOut = [] → key.length = 16 → badRounds r →
      ∃ ob, exec (.newBytes key r) s =
        .next { s with ib := key.map .byte, ob := ob, rspOut := [0x83000400] }) ∧
    ∀ (h : Word) (ws : List Word) (s : State), s.rspOut = [] → opField h = 3 → kfBit h = false →
      (∃ key r, decode h ws = .ok (.newBytes key r)) ∨
        ∃ ib ob, deliver h ws s = .next { s with ib := ib, ob := ob, rspOut := [0x83000900] }

/-- R107: NEW.WORDS likewise, with InvalidKeyShape before InvalidKeyElement before InvalidRounds. With `OP = 3`, `KF = 1` the
words spell this command, unless a reserved header bit is set: IllegalCommand. -/
def Obligations.NewWordsLoadsTheInstanceOrFails : Prop :=
  (∀ (v0 v1 v2 v3 : Word) (r : RoundsArg) (n : Word) (s : State), s.rspOut = [] → roundsOf r = .ok n →
      ∃ ob, exec (.newWords [.int v0, .int v1, .int v2, .int v3] r) s =
        .next { s with
          k := ⟨v0, v1, v2, v3⟩
          rounds := n
          cfg := true
          ib := [.elem (.int v0), .elem (.int v1), .elem (.int v2), .elem (.int v3)]
          ob := ob
          rspOut := [0x03000000] }) ∧
    (∀ (key : List KeyElem) (r : RoundsArg) (s : State), s.rspOut = [] → key.length ≠ 4 →
      ∃ ob, exec (.newWords key r) s =
        .next { s with ib := key.map .elem, ob := ob, rspOut := [0x83000200] }) ∧
    (∀ (key : List KeyElem) (r : RoundsArg) (s : State), s.rspOut = [] → key.length = 4 → .nonInt ∈ key →
      ∃ ob, exec (.newWords key r) s =
        .next { s with ib := key.map .elem, ob := ob, rspOut := [0x83000300] }) ∧
    (∀ (key : List KeyElem) (r : RoundsArg) (s : State), s.rspOut = [] → key.length = 4 → .nonInt ∉ key → badRounds r →
      ∃ ob, exec (.newWords key r) s =
        .next { s with ib := key.map .elem, ob := ob, rspOut := [0x83000400] }) ∧
    ∀ (h : Word) (ws : List Word) (s : State), s.rspOut = [] → opField h = 3 → kfBit h = true → ws.length = followCount h →
      (reservedField h = 0 → ∃ key r, decode h ws = .ok (.newWords key r)) ∧
        (reservedField h ≠ 0 → ∃ ib ob, deliver h ws s = .next { s with ib := ib, ob := ob, rspOut := [0x83000900] })

/-- R152: ENCRYPT of 8 bytes, with an instance, starts the forward transform of its two big-endian words, and after the
instance's rounds and the completion step has answered the 8 big-endian bytes of `TEA_ENC`, with the instance unchanged;
without an instance it is NotConfigured, with another length InvalidBlockLength, and a failure writes no register. With
`OP = 4` the words spell this command or are answered IllegalCommand. -/
def Obligations.EncryptAnswersTheForwardTransform : Prop :=
  (∀ (b0 b1 b2 b3 b4 b5 b6 b7 : Byte) (s : State), s.rspOut = [] → s.cfg = true → s.rst = false →
      let c := teaEnc ⟨be32 b0 b1 b2 b3, be32 b4 b5 b6 b7⟩ s.k s.rounds.toNat
      ∃ t u, exec (.encrypt [b0, b1, b2, b3, b4, b5, b6, b7]) s = .next t ∧ t.cipher = s.cipher ∧
        steps (s.rounds.toNat + 1) t = .next u ∧
        u.rspOut = 0x04000008 :: (bytes32 c.y ++ bytes32 c.z).map byteWord ∧
        u.ob = (bytes32 c.y ++ bytes32 c.z).map .byte ∧ u.ph = .idle ∧ u.cipher = s.cipher) ∧
    (∀ (b : List Byte) (s : State), s.rspOut = [] → s.cfg = false →
      ∃ ob, exec (.encrypt b) s = .next { s with ib := b.map .byte, ob := ob, rspOut := [0x84000800] }) ∧
    (∀ (b : List Byte) (s : State), s.rspOut = [] → s.cfg = true → b.length ≠ 8 →
      ∃ ob, exec (.encrypt b) s = .next { s with ib := b.map .byte, ob := ob, rspOut := [0x84000500] }) ∧
    ∀ (h : Word) (ws : List Word) (s : State), s.rspOut = [] → opField h = 4 →
      (∃ b, decode h ws = .ok (.encrypt b)) ∨
        ∃ ib ob, deliver h ws s = .next { s with ib := ib, ob := ob, rspOut := [0x84000900] }

/-- R153: DECRYPT, the same with the inverse transform. -/
def Obligations.DecryptAnswersTheInverseTransform : Prop :=
  (∀ (b0 b1 b2 b3 b4 b5 b6 b7 : Byte) (s : State), s.rspOut = [] → s.cfg = true → s.rst = false →
      let c := teaDec ⟨be32 b0 b1 b2 b3, be32 b4 b5 b6 b7⟩ s.k s.rounds.toNat
      ∃ t u, exec (.decrypt [b0, b1, b2, b3, b4, b5, b6, b7]) s = .next t ∧ t.cipher = s.cipher ∧
        steps (s.rounds.toNat + 1) t = .next u ∧
        u.rspOut = 0x05000008 :: (bytes32 c.y ++ bytes32 c.z).map byteWord ∧
        u.ob = (bytes32 c.y ++ bytes32 c.z).map .byte ∧ u.ph = .idle ∧ u.cipher = s.cipher) ∧
    (∀ (b : List Byte) (s : State), s.rspOut = [] → s.cfg = false →
      ∃ ob, exec (.decrypt b) s = .next { s with ib := b.map .byte, ob := ob, rspOut := [0x85000800] }) ∧
    (∀ (b : List Byte) (s : State), s.rspOut = [] → s.cfg = true → b.length ≠ 8 →
      ∃ ob, exec (.decrypt b) s = .next { s with ib := b.map .byte, ob := ob, rspOut := [0x85000500] }) ∧
    ∀ (h : Word) (ws : List Word) (s : State), s.rspOut = [] → opField h = 5 →
      (∃ b, decode h ws = .ok (.decrypt b)) ∨
        ∃ ib ob, deliver h ws s = .next { s with ib := ib, ob := ob, rspOut := [0x85000900] }

/-- R138: ENCRYPT_BLOCK of 2 words, with an instance, answers the two words of `TEA_ENC` after the instance's rounds and the
completion step, with the instance unchanged; without an instance it is NotConfigured, with another count MalformedBlock. With
`OP = 6` the words spell this command or are answered IllegalCommand. -/
def Obligations.EncryptBlockAnswersTheForwardTransform : Prop :=
  (∀ (y z : Word) (s : State), s.rspOut = [] → s.cfg = true → s.rst = false →
      let c := teaEnc ⟨y, z⟩ s.k s.rounds.toNat
      ∃ t u, exec (.encryptBlock [y, z]) s = .next t ∧ t.cipher = s.cipher ∧
        steps (s.rounds.toNat + 1) t = .next u ∧ u.rspOut = [0x06000002, c.y, c.z] ∧
        u.ob = [.word c.y, .word c.z] ∧ u.ph = .idle ∧ u.cipher = s.cipher) ∧
    (∀ (w : List Word) (s : State), s.rspOut = [] → s.cfg = false →
      ∃ ob, exec (.encryptBlock w) s = .next { s with ib := w.map .word, ob := ob, rspOut := [0x86000800] }) ∧
    (∀ (w : List Word) (s : State), s.rspOut = [] → s.cfg = true → w.length ≠ 2 →
      ∃ ob, exec (.encryptBlock w) s = .next { s with ib := w.map .word, ob := ob, rspOut := [0x86000600] }) ∧
    ∀ (h : Word) (ws : List Word) (s : State), s.rspOut = [] → opField h = 6 →
      (∃ w, decode h ws = .ok (.encryptBlock w)) ∨
        ∃ ib ob, deliver h ws s = .next { s with ib := ib, ob := ob, rspOut := [0x86000900] }

/-- R139: DECRYPT_BLOCK, the same with the inverse transform. -/
def Obligations.DecryptBlockAnswersTheInverseTransform : Prop :=
  (∀ (y z : Word) (s : State), s.rspOut = [] → s.cfg = true → s.rst = false →
      let c := teaDec ⟨y, z⟩ s.k s.rounds.toNat
      ∃ t u, exec (.decryptBlock [y, z]) s = .next t ∧ t.cipher = s.cipher ∧
        steps (s.rounds.toNat + 1) t = .next u ∧ u.rspOut = [0x07000002, c.y, c.z] ∧
        u.ob = [.word c.y, .word c.z] ∧ u.ph = .idle ∧ u.cipher = s.cipher) ∧
    (∀ (w : List Word) (s : State), s.rspOut = [] → s.cfg = false →
      ∃ ob, exec (.decryptBlock w) s = .next { s with ib := w.map .word, ob := ob, rspOut := [0x87000800] }) ∧
    (∀ (w : List Word) (s : State), s.rspOut = [] → s.cfg = true → w.length ≠ 2 →
      ∃ ob, exec (.decryptBlock w) s = .next { s with ib := w.map .word, ob := ob, rspOut := [0x87000600] }) ∧
    ∀ (h : Word) (ws : List Word) (s : State), s.rspOut = [] → opField h = 7 →
      (∃ w, decode h ws = .ok (.decryptBlock w)) ∨
        ∃ ib ob, deliver h ws s = .next { s with ib := ib, ob := ob, rspOut := [0x87000900] }

/-- 42_cipher_facade.md section 3: a byte-form transform is PACK of the word-form transform of UNPACK, both ways (the rule
derives this). -/
def Obligations.ByteAndWordFormsAgree : Prop :=
  ∀ (c : Cipher) (b : List Byte), c.cfg = true → b.length = 8 → ∃ e d : Block,
    (transact (.encryptBlock (unpack b)) c).2 = .ok (wordItems e) ∧ (transact (.encrypt b) c).2 = .ok (pack e) ∧
      (transact (.decryptBlock (unpack b)) c).2 = .ok (wordItems d) ∧ (transact (.decrypt b) c).2 = .ok (pack d)

/-- Frame of KEYSIZE, BLOCKSIZE, NEW.BYTES and NEW.WORDS: they touch no working register, no sequencer register, no word of
the command channel and no input; a size query touches no register of the instance either. Only `IB`, `OB` and the response
words offered may change beside the instance, and the latter are the transaction's, behind those still offered (entry 18, the
model's choice where there are any); the block has no memory (20_memory.md section 1). -/
def Obligations.QueriesAndNewLeaveTheSequencerAlone : Prop :=
  ∀ (i : Instr) (s t : State), isTransform i = false → exec i s = .next t →
    t.y = s.y ∧ t.z = s.z ∧ t.sum = s.sum ∧ t.ph = s.ph ∧ t.rc = s.rc ∧ t.opl = s.opl ∧ t.rx = s.rx ∧
      t.cmdIn = s.cmdIn ∧ t.rspTaken = s.rspTaken ∧ t.rspReady = s.rspReady ∧ t.rst = s.rst ∧
      t.freeCount = s.freeCount ∧ t.rspOut = s.rspOut ++ transactWords i s.cipher ∧ (isNew i = false → t.cipher = s.cipher)

/-- Frame of ENCRYPT, DECRYPT, ENCRYPT_BLOCK and DECRYPT_BLOCK, from the command through its last step: `K`, `ROUNDS`, `CFG`,
the command channel, the inputs and the words the host has taken are as before; only `Y`, `Z`, `SUM`, `RC`, `OPL`, `PH`, `IB`,
`OB` and the response words offered may change, and what was offered stays offered (entry 18, the model's choice). -/
def Obligations.TransformsLeaveTheInstanceAlone : Prop :=
  ∀ (i : Instr) (n : Nat) (s t u : State), isTransform i = true → s.rst = false → s.ph = .idle →
    exec i s = .next t → t.ph ≠ .idle → n ≤ s.rounds.toNat + 1 → steps n t = .next u →
    u.cipher = s.cipher ∧ u.rx = s.rx ∧ u.cmdIn = s.cmdIn ∧ u.rspTaken = s.rspTaken ∧ u.rspReady = s.rspReady ∧
      u.rst = s.rst ∧ u.ib = t.ib ∧ ∃ ws, u.rspOut = s.rspOut ++ ws

/-! ## The sequencer view -/

/-- R133: the start step of the four transforms, and no start step for a command that fails a check. -/
def Obligations.TransformStartsOnlyAfterItsChecks : Prop :=
  (∀ (b0 b1 b2 b3 b4 b5 b6 b7 : Byte) (s : State), s.cfg = true →
      let b := [b0, b1, b2, b3, b4, b5, b6, b7]
      exec (.encrypt b) s = .next { s with
        ib := b.map .byte, y := be32 b0 b1 b2 b3, z := be32 b4 b5 b6 b7, rc := 0, opl := 4, sum := 0, ph := .runEnc } ∧
      exec (.decrypt b) s = .next { s with
        ib := b.map .byte, y := be32 b0 b1 b2 b3, z := be32 b4 b5 b6 b7, rc := 0, opl := 5
        sum := mul32 Config.delta s.rounds.toNat, ph := .runDec }) ∧
    (∀ (y z : Word) (s : State), s.cfg = true →
      exec (.encryptBlock [y, z]) s = .next { s with
        ib := [.word y, .word z], y := y, z := z, rc := 0, opl := 6, sum := 0, ph := .runEnc } ∧
      exec (.decryptBlock [y, z]) s = .next { s with
        ib := [.word y, .word z], y := y, z := z, rc := 0, opl := 7, sum := mul32 Config.delta s.rounds.toNat
        ph := .runDec }) ∧
    ∀ (i : Instr) (s t : State), Fails i s.cipher → exec i s = .next t →
      t.y = s.y ∧ t.z = s.z ∧ t.sum = s.sum ∧ t.rc = s.rc ∧ t.opl = s.opl ∧ t.ph = s.ph

/-- R134, R135: a step in a running phase while `RC < ROUNDS` is one round, and changes nothing else. -/
def Obligations.RunningStepIsOneRound : Prop :=
  (∀ s : State, s.rst = false → s.ph = .runEnc → s.rc.toNat < s.rounds.toNat →
      let sum := add32 s.sum Config.delta
      let b := encRound ⟨s.y, s.z⟩ sum s.k
      step s = .next { s with sum := sum, y := b.y, z := b.z, rc := s.rc + 1 }) ∧
    ∀ s : State, s.rst = false → s.ph = .runDec → s.rc.toNat < s.rounds.toNat →
      let b := decRound ⟨s.y, s.z⟩ s.sum s.k
      step s = .next { s with y := b.y, z := b.z, sum := sub32 s.sum Config.delta, rc := s.rc + 1 }

/-- R136: with `RC = ROUNDS` the response is produced from `(Y, Z)` in the form of the command `OPL` names, `PH` returns to
IDLE, and `K`, `ROUNDS`, `CFG` are not written. Nothing is said of `Y`, `Z`, `SUM`, `RC`, `OPL` after it. No response is pending
while a transform runs (R202; the invariant says so). -/
def Obligations.CompletionAnswersFromTheWorkingBlock : Prop :=
  ∀ s : State, s.rst = false → s.ph ≠ .idle → s.rspOut = [] → s.rc = s.rounds →
    ((s.opl = 4 ∨ s.opl = 5) → ∃ t, step s = .next t ∧ t.ph = .idle ∧ t.cipher = s.cipher ∧
      t.ob = (bytes32 s.y ++ bytes32 s.z).map .byte ∧
      t.rspOut = statusWord false s.opl 0 8 :: (bytes32 s.y ++ bytes32 s.z).map byteWord) ∧
    ((s.opl = 6 ∨ s.opl = 7) → ∃ t, step s = .next t ∧ t.ph = .idle ∧ t.cipher = s.cipher ∧
      t.ob = [.word s.y, .word s.z] ∧ t.rspOut = [statusWord false s.opl 0 2, s.y, s.z])

/-- 41_block_codec.md section 4: after a start step exactly `ROUNDS` round steps follow, with no command accepted and the
instance unchanged, then the completion step, whose response is the transaction's, behind the words still offered (entry 18, the
model's choice where there are any). The number of steps depends on `ROUNDS` alone. (The rule derives this.) -/
def Obligations.SequencerViewAgreesWithTheTransaction : Prop :=
  ∀ (i : Instr) (s : State), isTransform i = true → ¬ Fails i s.cipher → s.rst = false →
    ∃ t u, exec i s = .next t ∧
      (∀ m ≤ s.rounds.toNat, ∃ v, steps m t = .next v ∧ v.ph ≠ .idle ∧ v.rc.toNat = m ∧ v.cmdReady = false ∧
        v.cipher = s.cipher) ∧
      steps (s.rounds.toNat + 1) t = .next u ∧ u.ph = .idle ∧ u.cipher = s.cipher ∧
      u.rspOut = s.rspOut ++ transactWords i s.cipher

/-- The model's choice (entry 10), for states the spec says are never taken: a running phase with `RC` above `ROUNDS`, or
complete with an `OPL` that is no transform's, stops by name. -/
def Obligations.SequencerStopsOutsideItsStates : Prop :=
  (∀ s : State, s.rst = false → s.ph ≠ .idle → s.rounds.toNat < s.rc.toNat → step s = .fault .rcPastRounds) ∧
    ∀ s : State, s.rst = false → s.ph ≠ .idle → s.rc = s.rounds → s.opl ≠ 4 → s.opl ≠ 5 → s.opl ≠ 6 → s.opl ≠ 7 →
      step s = .fault .oplNotTransform

/-! ## Errors -/

/-- 60_exceptions.md sections 1 and 4: a command that ends with an error answers exactly its code and leaves everything but
its buffers, of which nothing is said (entry 5), as it was: every register, the phase, the channel, the inputs. That the code
goes behind response words still offered, if there are any, is the model's choice (entry 18). -/
def Obligations.FailingCommandsChangeNothing : Prop :=
  ∀ (i : Instr) (s : State) (e : ErrName), (transact i s.cipher).2 = .err e → ∃ ib ob,
    exec i s = .next { s with ib := ib, ob := ob, rspOut := s.rspOut ++ [statusWord true i.opcode e.code 0] }

/-- R174: the order of checks, and so the one error a command with several faults reports. -/
def Obligations.ChecksAreMadeInOrder : Prop :=
  (∀ (h : Word) (ws : List Word) (c : Cipher), (∃ e, decode h ws = .error e) →
      transactFrame h ws c = (c, [statusWord true (opField h) 9 0])) ∧
    (∀ (i : Instr) (c : Cipher), isTransform i = true → c.cfg = false → (transact i c).2 = .err .notConfigured) ∧
    (∀ (b : List Byte) (c : Cipher), c.cfg = true → b.length ≠ 8 →
      (transact (.encrypt b) c).2 = .err .invalidBlockLength ∧ (transact (.decrypt b) c).2 = .err .invalidBlockLength) ∧
    (∀ (w : List Word) (c : Cipher), c.cfg = true → w.length ≠ 2 →
      (transact (.encryptBlock w) c).2 = .err .malformedBlock ∧ (transact (.decryptBlock w) c).2 = .err .malformedBlock) ∧
    (∀ (key : List Byte) (r : RoundsArg) (c : Cipher),
      (key.length ≠ 16 → (transact (.newBytes key r) c).2 = .err .invalidKeyLength) ∧
        (key.length = 16 → badRounds r → (transact (.newBytes key r) c).2 = .err .invalidRounds)) ∧
    ∀ (key : List KeyElem) (r : RoundsArg) (c : Cipher),
      (key.length ≠ 4 → (transact (.newWords key r) c).2 = .err .invalidKeyShape) ∧
        (key.length = 4 → .nonInt ∈ key → (transact (.newWords key r) c).2 = .err .invalidKeyElement) ∧
        (key.length = 4 → .nonInt ∉ key → badRounds r → (transact (.newWords key r) c).2 = .err .invalidRounds)

/-- 60_exceptions.md section 6: which command can end with which error, and no other; MalformedKey with none. (The rule
derives this.) -/
def Obligations.EachCommandHasItsOwnErrors : Prop :=
  ∀ e : ErrName,
    (∀ c, (transact .keysize c).2 ≠ .err e ∧ (transact .blocksize c).2 ≠ .err e) ∧
    ((∃ key r c, (transact (.newBytes key r) c).2 = .err e) ↔ e = .invalidKeyLength ∨ e = .invalidRounds) ∧
    ((∃ key r c, (transact (.newWords key r) c).2 = .err e) ↔
      e = .invalidKeyShape ∨ e = .invalidKeyElement ∨ e = .invalidRounds) ∧
    ((∃ b c, (transact (.encrypt b) c).2 = .err e) ↔ e = .invalidBlockLength ∨ e = .notConfigured) ∧
    ((∃ b c, (transact (.decrypt b) c).2 = .err e) ↔ e = .invalidBlockLength ∨ e = .notConfigured) ∧
    ((∃ w c, (transact (.encryptBlock w) c).2 = .err e) ↔ e = .malformedBlock ∨ e = .notConfigured) ∧
    ((∃ w c, (transact (.decryptBlock w) c).2 = .err e) ↔ e = .malformedBlock ∨ e = .notConfigured)

/-! ## Encoding -/

/-- 30_encoding.md section 7: words written out by the rule decode to the commands they stand for. -/
def Obligations.WorkedEncodingsDecode : Prop :=
  decode 0x10000000 [] = .ok .keysize ∧ decode 0x20000000 [] = .ok .blocksize ∧
    decode 0x38000004 [0x0000000F, 0x00010203, 0x04050607, 0x08090A0B, 0x0C0D0E0F] =
      .ok (.newWords [.int 0x00010203, .int 0x04050607, .int 0x08090A0B, .int 0x0C0D0E0F] .absent) ∧
    decode 0x3E000004 [0x00000002, 0x0000000D, 0x00010203, 0x00000000, 0x08090A0B, 0x0C0D0E0F] =
      .ok (.newWords [.int 0x00010203, .nonInt, .int 0x08090A0B, .int 0x0C0D0E0F] (.int 2)) ∧
    decode 0x36000001 [0xFFFFFFFF, 0x000000AB] = .ok (.newBytes [0xAB] (.int (-1))) ∧
    decode 0x40000008 [0x01, 0x23, 0x45, 0x67, 0x89, 0xAB, 0xCD, 0xEF] =
      .ok (.encrypt [0x01, 0x23, 0x45, 0x67, 0x89, 0xAB, 0xCD, 0xEF]) ∧
    decode 0x50000001 [0x00000041] = .ok (.decrypt [0x41]) ∧
    decode 0x60000002 [0x01234567, 0x89ABCDEF] = .ok (.encryptBlock [0x01234567, 0x89ABCDEF]) ∧
    decode 0x70000002 [0x01234567, 0x89ABCDEF] = .ok (.decryptBlock [0x01234567, 0x89ABCDEF])

/-- Decoding the words of a well-formed command gives it back, every operand at every value the encoding admits. -/
def Obligations.DecodeUndoesEncode : Prop :=
  ∀ i : Instr, i.wf = true → decode i.header i.following = .ok i

/-- What the decoder reads is a command the encoding can carry, with the header's operation code and exactly `F(H)` following
words. -/
def Obligations.DecodedCommandsAreWellFormed : Prop :=
  ∀ (h : Word) (ws : List Word) (i : Instr), decode h ws = .ok i →
    i.wf = true ∧ opField h = i.opcode ∧ ws.length = followCount h ∧ reservedField h = 0

/-- R77: a header selects the row whose match it equals under the row's mask; a byte-form header is still no command when an
item word has a nonzero bit above bit 7. -/
def Obligations.HeadersSelectTheirTableRow : Prop :=
  ∀ (h : Word) (ws : List Word), ws.length = followCount h →
    (decode h ws = .ok .keysize ↔ h &&& 0xFFFFFFFF = 0x10000000) ∧
    (decode h ws = .ok .blocksize ↔ h &&& 0xFFFFFFFF = 0x20000000) ∧
    ((∃ key r, decode h ws = .ok (.newBytes key r)) ↔ h &&& 0xF9FFFFE0 = 0x30000000 ∧ bytesClean h ws) ∧
    ((∃ key r, decode h ws = .ok (.newWords key r)) ↔ h &&& 0xF9FFFFE0 = 0x38000000) ∧
    ((∃ b, decode h ws = .ok (.encrypt b)) ↔ h &&& 0xFFFFFFE0 = 0x40000000 ∧ bytesClean h ws) ∧
    ((∃ b, decode h ws = .ok (.decrypt b)) ↔ h &&& 0xFFFFFFE0 = 0x50000000 ∧ bytesClean h ws) ∧
    ((∃ w, decode h ws = .ok (.encryptBlock w)) ↔ h &&& 0xFFFFFFE0 = 0x60000000) ∧
    ((∃ w, decode h ws = .ok (.decryptBlock w)) ↔ h &&& 0xFFFFFFE0 = 0x70000000)

/-- 30_encoding.md section 4: the illegal encodings, all of them and no other; delivered, they answer IllegalCommand and write no
register. Nothing is said of the two buffers (entry 5); that the answer goes behind response words still offered, if there are
any, is the model's choice (entry 18). -/
def Obligations.IllegalEncodingsAreRefusedAndHarmless : Prop :=
  ∀ (h : Word) (ws : List Word), ws.length = followCount h →
    ((∃ e, decode h ws = .error e) ↔
      opField h = 0 ∨ 8 ≤ (opField h).toNat ∨ reservedField h ≠ 0 ∨
        (opField h ≠ 3 ∧ (kfBit h = true ∨ rpBit h = true ∨ riBit h = true)) ∨
        ((opField h = 1 ∨ opField h = 2) ∧ lenField h ≠ 0) ∨
        ((opField h = 4 ∨ opField h = 5 ∨ (opField h = 3 ∧ kfBit h = false)) ∧ ¬ bytesClean h ws)) ∧
    ∀ s : State, (∃ e, decode h ws = .error e) →
      ∃ ib ob, deliver h ws s = .next { s with ib := ib, ob := ob, rspOut := s.rspOut ++ [statusWord true (opField h) 9 0] }

/-- 30_encoding.md section 4: what is ignored, not illegal: `RI` without `RP`, `RVAL` without `RI`, `EMASK` bits at and above
`LEN`, the item word of an element whose `EMASK` bit is 0. -/
def Obligations.IgnoredFieldsHaveNoEffect : Prop :=
  (∀ (h : Word) (ws : List Word), opField h = 3 → rpBit h = false → decode (h ^^^ 0x02000000) ws = decode h ws) ∧
    (∀ (h v v' : Word) (ws : List Word), rpBit h = true → riBit h = false → decode h (v :: ws) = decode h (v' :: ws)) ∧
    (∀ (h m m' : Word) (ws pre : List Word), kfBit h = true → pre.length = (rpBit h).toNat →
      (∀ j < lenField h, m.getLsbD j = m'.getLsbD j) → decode h (pre ++ m :: ws) = decode h (pre ++ m' :: ws)) ∧
    ∀ (h m : Word) (ws ws' pre : List Word), kfBit h = true → pre.length = (rpBit h).toNat → ws.length = ws'.length →
      (∀ j, m.getLsbD j = true → ws[j]? = ws'[j]?) → decode h (pre ++ m :: ws) = decode h (pre ++ m :: ws')

/-- R73: the rounds operand, from `RP`, `RI` and the two's-complement `RVAL` word. -/
def Obligations.RvalIsTwosComplement : Prop :=
  (∀ (h v : Word) (ws : List Word) (i : Instr), rpBit h = true → decode h (v :: ws) = .ok i →
      let r := if riBit h = true
        then RoundsArg.int ((v.toNat % 2 ^ 31 : Nat) - 2 ^ 31 * (v.toNat / 2 ^ 31 : Nat)) else RoundsArg.nonInt
      (∃ key, i = .newBytes key r) ∨ ∃ key, i = .newWords key r) ∧
    ∀ (h : Word) (ws : List Word) (i : Instr), opField h = 3 → rpBit h = false → decode h ws = .ok i →
      (∃ key, i = .newBytes key .absent) ∨ ∃ key, i = .newWords key .absent

/-- R74: `EMASK` bit `j` is the integer tag of key element `j`, and item word `j` its value. -/
def Obligations.EmaskBitsTagTheElements : Prop :=
  ∀ (h m : Word) (ws pre : List Word) (key : List KeyElem) (r : RoundsArg), pre.length = (rpBit h).toNat →
    decode h (pre ++ m :: ws) = .ok (.newWords key r) →
    key.length = lenField h ∧ ∀ (j : Nat) (w : Word), ws[j]? = some w →
      key[j]? = some (if m.getLsbD j then .int w else .nonInt)

/-- 30_encoding.md section 2: the number of following words, from three fields of the header, for every header; at most 33. -/
def Obligations.FollowingWordsComeFromTheHeaderAlone : Prop :=
  ∀ h : Word, followCount h = h.toNat / 2 ^ 26 % 2 + h.toNat / 2 ^ 27 % 2 + h.toNat % 32 ∧ followCount h ≤ 33

/-- 30_encoding.md section 5: the fields of a status word, the words of a response, and that an error's code is never 0. -/
def Obligations.StatusWordHasItsFields : Prop :=
  (∀ (err : Bool) (ope : Opcode) (code rlen : BitVec 8),
      let s := statusWord err ope code rlen
      s.getLsbD 31 = err ∧ s.extractLsb' 28 3 = 0 ∧ s.extractLsb' 24 4 = ope ∧ s.extractLsb' 16 8 = 0 ∧
        s.extractLsb' 8 8 = code ∧ s.extractLsb' 0 8 = rlen) ∧
    (∀ (op : Opcode) (items : List ResItem), responseWords op (.ok items) =
      statusWord false op 0 (BitVec.ofNat 8 items.length) :: items.map ResItem.toWord) ∧
    ∀ (op : Opcode) (e : ErrName), responseWords op (.err e) = [statusWord true op e.code 0] ∧ e.code ≠ 0

/-! ## The channels -/

/-- The block runs what it decodes: with no reset, in IDLE and no response pending, the word that completes a command makes
the step `exec` of the decoded command, in the state with that word taken and the delivery ended. -/
def Obligations.StepRunsTheDecodedCommand : Prop :=
  ∀ (s : State) (w : Word) (rest : List Word) (i : Instr),
    s.rst = false → s.ph = .idle → s.rspOut = [] → s.cmdIn = w :: rest →
    decode (frameWith s.rx w).1 (frameWith s.rx w).2 = .ok i → step s = exec i { s with cmdIn := rest, rx := [] }

/-- The words of a well-formed command, offered to a block that is ready, are taken one a step, and the last makes it run,
with what is offered behind it left alone. -/
def Obligations.OfferedCommandsAreDeliveredWhole : Prop :=
  ∀ (i : Instr) (s : State) (rest : List Word), i.wf = true → s.Ready → s.cmdIn = encode i ++ rest →
    steps (encode i).length s = exec i { s with cmdIn := rest }

/-- 30_encoding.md section 2, 92_eei_decisions.md D22: a header that spells no command still takes its `F(H)` words, answers
IllegalCommand once, changes no register, and leaves the channel at the next header. Nothing is said of the two buffers
(entry 5). -/
def Obligations.IllegalCommandsKeepTheChannelInStep : Prop :=
  ∀ (h : Word) (ws rest : List Word) (s : State), ws.length = followCount h → (∃ e, decode h ws = .error e) →
    s.Ready → s.cmdIn = h :: ws ++ rest →
    ∃ ib ob, steps (followCount h + 1) s =
      .next { s with cmdIn := rest, ib := ib, ob := ob, rspOut := [statusWord true (opField h) 9 0] }

/-- 70_reset_and_hazards.md sections 1 and 3: no header and no other word is taken while a transform runs or a response is
pending; a word is taken when it is offered and `cmd_ready` is 1, and only then, the first one, and the rest stays. `busy` is 1
while a command is in delivery, running or being answered: but for reset, a block that is not busy takes the header offered and
is then busy, nothing else makes it busy, and only taking the last response word ends it. That the host's side stays as it is
while `rst` is asserted is the model's choice (entry 9). -/
def Obligations.WordsAreHeldWhileBusy : Prop :=
  (∀ s t : State, s.rst = false → (s.ph ≠ .idle ∨ s.rspOut ≠ []) → step s = .next t →
      t.cmdIn = s.cmdIn ∧ t.rx = s.rx) ∧
    (∀ s t : State, step s = .next t → t.cmdIn ≠ s.cmdIn → s.cmdReady = true ∧ ∃ w, s.cmdIn = w :: t.cmdIn) ∧
    (∀ (s : State) (w : Word) (rest : List Word), s.cmdReady = true → s.cmdIn = w :: rest →
      ∃ t, step s = .next t ∧ t.cmdIn = rest) ∧
    (∀ s : State, s.busy = true ↔ s.rx ≠ [] ∨ s.ph ≠ .idle ∨ s.rspOut ≠ []) ∧
    (∀ (s : State) (w : Word) (rest : List Word), s.rst = false → s.busy = false → s.cmdIn = w :: rest →
      s.cmdReady = true ∧ ∃ t, step s = .next t ∧ t.cmdIn = rest ∧ t.busy = true) ∧
    (∀ s t : State, s.busy = false → step s = .next t → t.busy = true → s.rst = false ∧ ∃ w, s.cmdIn = w :: t.cmdIn) ∧
    (∀ s t : State, s.rst = false → s.busy = true → step s = .next t → t.busy = false →
      s.rspReady = true ∧ ∃ w, s.rspOut = [w] ∧ t.rspTaken = s.rspTaken ++ [w]) ∧
    ∀ s t : State, s.rst = true → step s = .next t →
      t.cmdIn = s.cmdIn ∧ t.rspTaken = s.rspTaken ∧ t.rspReady = s.rspReady ∧ t.rst = s.rst

/-- 70_reset_and_hazards.md sections 1 and 3: but for reset, a response word offered stays offered until the host takes it, in
order; none is dropped or overwritten. A word is taken when `rsp_valid` and `rsp_ready` are both 1, and only then, and it is
the word on `rsp_data`. -/
def Obligations.ResponseWordsAreNeverLost : Prop :=
  (∀ s t : State, s.rst = false → step s = .next t →
    (∃ ws, t.rspOut = s.rspOut ++ ws ∧ t.rspTaken = s.rspTaken) ∨
      ∃ w, s.rspReady = true ∧ s.rspOut = w :: t.rspOut ∧ t.rspTaken = s.rspTaken ++ [w]) ∧
    ∀ s t : State, s.Inv → step s = .next t →
      (s.rspValid = true → s.rspReady = true → ∃ w, s.rspData = some w ∧ t.rspTaken = s.rspTaken ++ [w]) ∧
        (s.rspValid = false ∨ s.rspReady = false → t.rspTaken = s.rspTaken)

/-- 70_reset_and_hazards.md section 3: the block waits without limit for the rest of a command, and for a response to be
taken; nothing of it changes meanwhile (that a wait is a step is the model's choice, entry 8). -/
def Obligations.TheBlockWaitsForTheHost : Prop :=
  ∀ (n : Nat) (s : State), s.rst = false → s.ph = .idle →
    ((s.rspOut = [] ∧ s.cmdIn = []) ∨ (s.rspOut ≠ [] ∧ s.rspReady = false)) → steps n s = .next s

/-- R59: commands offered one after another, legal or not, are executed one at a time, each completely and in order, and
answered in the same order, each from the instance the one before it left: the block's run over any stream of whole commands
is the sequential run of their transactions. -/
def Obligations.CommandStreamsRunInOrder : Prop :=
  ∀ (fs : List (Word × List Word)) (rest : List Word) (s : State), wholeFrames fs → s.Ready → s.rspReady = true →
    s.cmdIn = channelWords fs ++ rest → ∃ n t, steps n s = .next t ∧ t.Ready ∧ t.cmdIn = rest ∧
      t.cipher = (session fs s.cipher).1 ∧ t.rspTaken = s.rspTaken ++ (session fs s.cipher).2

/-- 10_state.md section 6: the response of a command, and the number of steps it takes, depend on its own words and on `K`,
`ROUNDS`, `CFG` alone: two blocks that agree on these may differ in everything else, and after the same number of steps each
has taken exactly the command's words, has had the same response taken, and holds the same instance. (The rule derives this.) -/
def Obligations.ResponsesDependOnTheInstanceAlone : Prop :=
  ∀ (h : Word) (ws rest1 rest2 : List Word) (s1 s2 : State), ws.length = followCount h → s1.Ready → s2.Ready →
    s1.rspReady = true → s2.rspReady = true → s1.cipher = s2.cipher → s1.cmdIn = h :: ws ++ rest1 →
    s2.cmdIn = h :: ws ++ rest2 → ∃ n t1 t2 rsp, steps n s1 = .next t1 ∧ steps n s2 = .next t2 ∧ t1.Ready ∧ t2.Ready ∧
      t1.cmdIn = rest1 ∧ t2.cmdIn = rest2 ∧ rsp ≠ [] ∧ rsp = (transactFrame h ws s1.cipher).2 ∧
      t1.rspTaken = s1.rspTaken ++ rsp ∧ t2.rspTaken = s2.rspTaken ++ rsp ∧
      t1.cipher = (transactFrame h ws s1.cipher).1 ∧ t2.cipher = t1.cipher

/-- 20_memory.md section 4: in any interleaving of transform commands from any requesters each gets the response it would get
alone, and the instance stays. (The rule derives this.) -/
def Obligations.InterleavedTransformsAnswerAsAlone : Prop :=
  ∀ (fs : List (Word × List Word)) (c : Cipher),
    (∀ f ∈ fs, ∃ i, decode f.1 f.2 = .ok i ∧ isTransform i = true) →
    session fs c = (c, fs.flatMap (fun f => (transactFrame f.1 f.2 c).2))
end

