-- ==== Sys2Proof/Laws/State.lean ====
section
/-! SUPPORT. One lemma per field per update of State, each true by rfl, so that no proof unfolds a record update. A free value
has no lemma: nothing is known of it. -/

namespace Sys2Proof.Machine

/-! ## loadIB -/

@[simp] theorem State.loadIB_k (s : State) (items : List OpItem) : (s.loadIB items).k = s.k := rfl
@[simp] theorem State.loadIB_rounds (s : State) (items : List OpItem) : (s.loadIB items).rounds = s.rounds := rfl
@[simp] theorem State.loadIB_cfg (s : State) (items : List OpItem) : (s.loadIB items).cfg = s.cfg := rfl
@[simp] theorem State.loadIB_y (s : State) (items : List OpItem) : (s.loadIB items).y = s.y := rfl
@[simp] theorem State.loadIB_z (s : State) (items : List OpItem) : (s.loadIB items).z = s.z := rfl
@[simp] theorem State.loadIB_sum (s : State) (items : List OpItem) : (s.loadIB items).sum = s.sum := rfl
@[simp] theorem State.loadIB_ph (s : State) (items : List OpItem) : (s.loadIB items).ph = s.ph := rfl
@[simp] theorem State.loadIB_rc (s : State) (items : List OpItem) : (s.loadIB items).rc = s.rc := rfl
@[simp] theorem State.loadIB_opl (s : State) (items : List OpItem) : (s.loadIB items).opl = s.opl := rfl
@[simp] theorem State.loadIB_ib (s : State) (items : List OpItem) : (s.loadIB items).ib = items := rfl
@[simp] theorem State.loadIB_ob (s : State) (items : List OpItem) : (s.loadIB items).ob = s.ob := rfl
@[simp] theorem State.loadIB_rx (s : State) (items : List OpItem) : (s.loadIB items).rx = s.rx := rfl
@[simp] theorem State.loadIB_rspOut (s : State) (items : List OpItem) : (s.loadIB items).rspOut = s.rspOut := rfl
@[simp] theorem State.loadIB_cmdIn (s : State) (items : List OpItem) : (s.loadIB items).cmdIn = s.cmdIn := rfl
@[simp] theorem State.loadIB_rspTaken (s : State) (items : List OpItem) : (s.loadIB items).rspTaken = s.rspTaken := rfl
@[simp] theorem State.loadIB_rspReady (s : State) (items : List OpItem) : (s.loadIB items).rspReady = s.rspReady := rfl
@[simp] theorem State.loadIB_rst (s : State) (items : List OpItem) : (s.loadIB items).rst = s.rst := rfl
@[simp] theorem State.loadIB_freeCount (s : State) (items : List OpItem) : (s.loadIB items).freeCount = s.freeCount := rfl

/-! ## answer -/

@[simp] theorem State.answer_k (s : State) (op : Opcode) (a : Answer) : (s.answer op a).k = s.k := rfl
@[simp] theorem State.answer_rounds (s : State) (op : Opcode) (a : Answer) : (s.answer op a).rounds = s.rounds := rfl
@[simp] theorem State.answer_cfg (s : State) (op : Opcode) (a : Answer) : (s.answer op a).cfg = s.cfg := rfl
@[simp] theorem State.answer_y (s : State) (op : Opcode) (a : Answer) : (s.answer op a).y = s.y := rfl
@[simp] theorem State.answer_z (s : State) (op : Opcode) (a : Answer) : (s.answer op a).z = s.z := rfl
@[simp] theorem State.answer_sum (s : State) (op : Opcode) (a : Answer) : (s.answer op a).sum = s.sum := rfl
@[simp] theorem State.answer_ph (s : State) (op : Opcode) (a : Answer) : (s.answer op a).ph = s.ph := rfl
@[simp] theorem State.answer_rc (s : State) (op : Opcode) (a : Answer) : (s.answer op a).rc = s.rc := rfl
@[simp] theorem State.answer_opl (s : State) (op : Opcode) (a : Answer) : (s.answer op a).opl = s.opl := rfl
@[simp] theorem State.answer_ib (s : State) (op : Opcode) (a : Answer) : (s.answer op a).ib = s.ib := rfl
@[simp] theorem State.answer_ob (s : State) (op : Opcode) (a : Answer) : (s.answer op a).ob = a.items := rfl
@[simp] theorem State.answer_rx (s : State) (op : Opcode) (a : Answer) : (s.answer op a).rx = s.rx := rfl
@[simp] theorem State.answer_rspOut (s : State) (op : Opcode) (a : Answer) : (s.answer op a).rspOut = s.rspOut ++ responseWords op a := rfl
@[simp] theorem State.answer_cmdIn (s : State) (op : Opcode) (a : Answer) : (s.answer op a).cmdIn = s.cmdIn := rfl
@[simp] theorem State.answer_rspTaken (s : State) (op : Opcode) (a : Answer) : (s.answer op a).rspTaken = s.rspTaken := rfl
@[simp] theorem State.answer_rspReady (s : State) (op : Opcode) (a : Answer) : (s.answer op a).rspReady = s.rspReady := rfl
@[simp] theorem State.answer_rst (s : State) (op : Opcode) (a : Answer) : (s.answer op a).rst = s.rst := rfl
@[simp] theorem State.answer_freeCount (s : State) (op : Opcode) (a : Answer) : (s.answer op a).freeCount = s.freeCount := rfl

/-! ## writeInstance -/

@[simp] theorem State.writeInstance_k (s : State) (key : Key) (n : Word) : (s.writeInstance key n).k = key := rfl
@[simp] theorem State.writeInstance_rounds (s : State) (key : Key) (n : Word) : (s.writeInstance key n).rounds = n := rfl
@[simp] theorem State.writeInstance_cfg (s : State) (key : Key) (n : Word) : (s.writeInstance key n).cfg = true := rfl
@[simp] theorem State.writeInstance_y (s : State) (key : Key) (n : Word) : (s.writeInstance key n).y = s.y := rfl
@[simp] theorem State.writeInstance_z (s : State) (key : Key) (n : Word) : (s.writeInstance key n).z = s.z := rfl
@[simp] theorem State.writeInstance_sum (s : State) (key : Key) (n : Word) : (s.writeInstance key n).sum = s.sum := rfl
@[simp] theorem State.writeInstance_ph (s : State) (key : Key) (n : Word) : (s.writeInstance key n).ph = s.ph := rfl
@[simp] theorem State.writeInstance_rc (s : State) (key : Key) (n : Word) : (s.writeInstance key n).rc = s.rc := rfl
@[simp] theorem State.writeInstance_opl (s : State) (key : Key) (n : Word) : (s.writeInstance key n).opl = s.opl := rfl
@[simp] theorem State.writeInstance_ib (s : State) (key : Key) (n : Word) : (s.writeInstance key n).ib = s.ib := rfl
@[simp] theorem State.writeInstance_ob (s : State) (key : Key) (n : Word) : (s.writeInstance key n).ob = s.ob := rfl
@[simp] theorem State.writeInstance_rx (s : State) (key : Key) (n : Word) : (s.writeInstance key n).rx = s.rx := rfl
@[simp] theorem State.writeInstance_rspOut (s : State) (key : Key) (n : Word) : (s.writeInstance key n).rspOut = s.rspOut := rfl
@[simp] theorem State.writeInstance_cmdIn (s : State) (key : Key) (n : Word) : (s.writeInstance key n).cmdIn = s.cmdIn := rfl
@[simp] theorem State.writeInstance_rspTaken (s : State) (key : Key) (n : Word) : (s.writeInstance key n).rspTaken = s.rspTaken := rfl
@[simp] theorem State.writeInstance_rspReady (s : State) (key : Key) (n : Word) : (s.writeInstance key n).rspReady = s.rspReady := rfl
@[simp] theorem State.writeInstance_rst (s : State) (key : Key) (n : Word) : (s.writeInstance key n).rst = s.rst := rfl
@[simp] theorem State.writeInstance_freeCount (s : State) (key : Key) (n : Word) : (s.writeInstance key n).freeCount = s.freeCount := rfl

/-! ## forgetWorking -/

@[simp] theorem State.forgetWorking_k (s : State) : (s.forgetWorking).k = s.k := rfl
@[simp] theorem State.forgetWorking_rounds (s : State) : (s.forgetWorking).rounds = s.rounds := rfl
@[simp] theorem State.forgetWorking_cfg (s : State) : (s.forgetWorking).cfg = s.cfg := rfl
@[simp] theorem State.forgetWorking_ph (s : State) : (s.forgetWorking).ph = s.ph := rfl
@[simp] theorem State.forgetWorking_ib (s : State) : (s.forgetWorking).ib = s.ib := rfl
@[simp] theorem State.forgetWorking_ob (s : State) : (s.forgetWorking).ob = s.ob := rfl
@[simp] theorem State.forgetWorking_rx (s : State) : (s.forgetWorking).rx = s.rx := rfl
@[simp] theorem State.forgetWorking_rspOut (s : State) : (s.forgetWorking).rspOut = s.rspOut := rfl
@[simp] theorem State.forgetWorking_cmdIn (s : State) : (s.forgetWorking).cmdIn = s.cmdIn := rfl
@[simp] theorem State.forgetWorking_rspTaken (s : State) : (s.forgetWorking).rspTaken = s.rspTaken := rfl
@[simp] theorem State.forgetWorking_rspReady (s : State) : (s.forgetWorking).rspReady = s.rspReady := rfl
@[simp] theorem State.forgetWorking_rst (s : State) : (s.forgetWorking).rst = s.rst := rfl
@[simp] theorem State.forgetWorking_freeCount (s : State) : (s.forgetWorking).freeCount = s.freeCount + 4 := rfl

/-! ## forgetBuffers -/

@[simp] theorem State.forgetBuffers_k (s : State) : (s.forgetBuffers).k = s.k := rfl
@[simp] theorem State.forgetBuffers_rounds (s : State) : (s.forgetBuffers).rounds = s.rounds := rfl
@[simp] theorem State.forgetBuffers_cfg (s : State) : (s.forgetBuffers).cfg = s.cfg := rfl
@[simp] theorem State.forgetBuffers_y (s : State) : (s.forgetBuffers).y = s.y := rfl
@[simp] theorem State.forgetBuffers_z (s : State) : (s.forgetBuffers).z = s.z := rfl
@[simp] theorem State.forgetBuffers_sum (s : State) : (s.forgetBuffers).sum = s.sum := rfl
@[simp] theorem State.forgetBuffers_ph (s : State) : (s.forgetBuffers).ph = s.ph := rfl
@[simp] theorem State.forgetBuffers_rc (s : State) : (s.forgetBuffers).rc = s.rc := rfl
@[simp] theorem State.forgetBuffers_opl (s : State) : (s.forgetBuffers).opl = s.opl := rfl
@[simp] theorem State.forgetBuffers_rx (s : State) : (s.forgetBuffers).rx = s.rx := rfl
@[simp] theorem State.forgetBuffers_rspOut (s : State) : (s.forgetBuffers).rspOut = s.rspOut := rfl
@[simp] theorem State.forgetBuffers_cmdIn (s : State) : (s.forgetBuffers).cmdIn = s.cmdIn := rfl
@[simp] theorem State.forgetBuffers_rspTaken (s : State) : (s.forgetBuffers).rspTaken = s.rspTaken := rfl
@[simp] theorem State.forgetBuffers_rspReady (s : State) : (s.forgetBuffers).rspReady = s.rspReady := rfl
@[simp] theorem State.forgetBuffers_rst (s : State) : (s.forgetBuffers).rst = s.rst := rfl
@[simp] theorem State.forgetBuffers_freeCount (s : State) : (s.forgetBuffers).freeCount = s.freeCount + 1 := rfl

/-! ## resetEvent -/

@[simp] theorem State.resetEvent_cfg (s : State) : (s.resetEvent).cfg = false := rfl
@[simp] theorem State.resetEvent_ph (s : State) : (s.resetEvent).ph = .idle := rfl
@[simp] theorem State.resetEvent_rx (s : State) : (s.resetEvent).rx = [] := rfl
@[simp] theorem State.resetEvent_rspOut (s : State) : (s.resetEvent).rspOut = [] := rfl
@[simp] theorem State.resetEvent_cmdIn (s : State) : (s.resetEvent).cmdIn = s.cmdIn := rfl
@[simp] theorem State.resetEvent_rspTaken (s : State) : (s.resetEvent).rspTaken = s.rspTaken := rfl
@[simp] theorem State.resetEvent_rspReady (s : State) : (s.resetEvent).rspReady = s.rspReady := rfl
@[simp] theorem State.resetEvent_rst (s : State) : (s.resetEvent).rst = s.rst := rfl

/-! ## startStep -/

@[simp] theorem State.startStep_k (s : State) (d : Direction) (op : Opcode) (b : Block) : (s.startStep d op b).k = s.k := rfl
@[simp] theorem State.startStep_rounds (s : State) (d : Direction) (op : Opcode) (b : Block) : (s.startStep d op b).rounds = s.rounds := rfl
@[simp] theorem State.startStep_cfg (s : State) (d : Direction) (op : Opcode) (b : Block) : (s.startStep d op b).cfg = s.cfg := rfl
@[simp] theorem State.startStep_y (s : State) (d : Direction) (op : Opcode) (b : Block) : (s.startStep d op b).y = b.y := rfl
@[simp] theorem State.startStep_z (s : State) (d : Direction) (op : Opcode) (b : Block) : (s.startStep d op b).z = b.z := rfl
@[simp] theorem State.startStep_sum (s : State) (d : Direction) (op : Opcode) (b : Block) : (s.startStep d op b).sum = d.startSum s.rounds := rfl
@[simp] theorem State.startStep_ph (s : State) (d : Direction) (op : Opcode) (b : Block) : (s.startStep d op b).ph = d.phase := rfl
@[simp] theorem State.startStep_rc (s : State) (d : Direction) (op : Opcode) (b : Block) : (s.startStep d op b).rc = 0 := rfl
@[simp] theorem State.startStep_opl (s : State) (d : Direction) (op : Opcode) (b : Block) : (s.startStep d op b).opl = op := rfl
@[simp] theorem State.startStep_ib (s : State) (d : Direction) (op : Opcode) (b : Block) : (s.startStep d op b).ib = s.ib := rfl
@[simp] theorem State.startStep_ob (s : State) (d : Direction) (op : Opcode) (b : Block) : (s.startStep d op b).ob = s.ob := rfl
@[simp] theorem State.startStep_rx (s : State) (d : Direction) (op : Opcode) (b : Block) : (s.startStep d op b).rx = s.rx := rfl
@[simp] theorem State.startStep_rspOut (s : State) (d : Direction) (op : Opcode) (b : Block) : (s.startStep d op b).rspOut = s.rspOut := rfl
@[simp] theorem State.startStep_cmdIn (s : State) (d : Direction) (op : Opcode) (b : Block) : (s.startStep d op b).cmdIn = s.cmdIn := rfl
@[simp] theorem State.startStep_rspTaken (s : State) (d : Direction) (op : Opcode) (b : Block) : (s.startStep d op b).rspTaken = s.rspTaken := rfl
@[simp] theorem State.startStep_rspReady (s : State) (d : Direction) (op : Opcode) (b : Block) : (s.startStep d op b).rspReady = s.rspReady := rfl
@[simp] theorem State.startStep_rst (s : State) (d : Direction) (op : Opcode) (b : Block) : (s.startStep d op b).rst = s.rst := rfl
@[simp] theorem State.startStep_freeCount (s : State) (d : Direction) (op : Opcode) (b : Block) : (s.startStep d op b).freeCount = s.freeCount := rfl

/-! ## forwardRound -/

@[simp] theorem State.forwardRound_k (s : State) : (s.forwardRound).k = s.k := rfl
@[simp] theorem State.forwardRound_rounds (s : State) : (s.forwardRound).rounds = s.rounds := rfl
@[simp] theorem State.forwardRound_cfg (s : State) : (s.forwardRound).cfg = s.cfg := rfl
@[simp] theorem State.forwardRound_y (s : State) : (s.forwardRound).y = (encRound s.block (add32 s.sum Config.delta) s.k).y := rfl
@[simp] theorem State.forwardRound_z (s : State) : (s.forwardRound).z = (encRound s.block (add32 s.sum Config.delta) s.k).z := rfl
@[simp] theorem State.forwardRound_sum (s : State) : (s.forwardRound).sum = add32 s.sum Config.delta := rfl
@[simp] theorem State.forwardRound_ph (s : State) : (s.forwardRound).ph = s.ph := rfl
@[simp] theorem State.forwardRound_rc (s : State) : (s.forwardRound).rc = s.rc + 1 := rfl
@[simp] theorem State.forwardRound_opl (s : State) : (s.forwardRound).opl = s.opl := rfl
@[simp] theorem State.forwardRound_ib (s : State) : (s.forwardRound).ib = s.ib := rfl
@[simp] theorem State.forwardRound_ob (s : State) : (s.forwardRound).ob = s.ob := rfl
@[simp] theorem State.forwardRound_rx (s : State) : (s.forwardRound).rx = s.rx := rfl
@[simp] theorem State.forwardRound_rspOut (s : State) : (s.forwardRound).rspOut = s.rspOut := rfl
@[simp] theorem State.forwardRound_cmdIn (s : State) : (s.forwardRound).cmdIn = s.cmdIn := rfl
@[simp] theorem State.forwardRound_rspTaken (s : State) : (s.forwardRound).rspTaken = s.rspTaken := rfl
@[simp] theorem State.forwardRound_rspReady (s : State) : (s.forwardRound).rspReady = s.rspReady := rfl
@[simp] theorem State.forwardRound_rst (s : State) : (s.forwardRound).rst = s.rst := rfl
@[simp] theorem State.forwardRound_freeCount (s : State) : (s.forwardRound).freeCount = s.freeCount := rfl

/-! ## inverseRound -/

@[simp] theorem State.inverseRound_k (s : State) : (s.inverseRound).k = s.k := rfl
@[simp] theorem State.inverseRound_rounds (s : State) : (s.inverseRound).rounds = s.rounds := rfl
@[simp] theorem State.inverseRound_cfg (s : State) : (s.inverseRound).cfg = s.cfg := rfl
@[simp] theorem State.inverseRound_y (s : State) : (s.inverseRound).y = (decRound s.block s.sum s.k).y := rfl
@[simp] theorem State.inverseRound_z (s : State) : (s.inverseRound).z = (decRound s.block s.sum s.k).z := rfl
@[simp] theorem State.inverseRound_sum (s : State) : (s.inverseRound).sum = sub32 s.sum Config.delta := rfl
@[simp] theorem State.inverseRound_ph (s : State) : (s.inverseRound).ph = s.ph := rfl
@[simp] theorem State.inverseRound_rc (s : State) : (s.inverseRound).rc = s.rc + 1 := rfl
@[simp] theorem State.inverseRound_opl (s : State) : (s.inverseRound).opl = s.opl := rfl
@[simp] theorem State.inverseRound_ib (s : State) : (s.inverseRound).ib = s.ib := rfl
@[simp] theorem State.inverseRound_ob (s : State) : (s.inverseRound).ob = s.ob := rfl
@[simp] theorem State.inverseRound_rx (s : State) : (s.inverseRound).rx = s.rx := rfl
@[simp] theorem State.inverseRound_rspOut (s : State) : (s.inverseRound).rspOut = s.rspOut := rfl
@[simp] theorem State.inverseRound_cmdIn (s : State) : (s.inverseRound).cmdIn = s.cmdIn := rfl
@[simp] theorem State.inverseRound_rspTaken (s : State) : (s.inverseRound).rspTaken = s.rspTaken := rfl
@[simp] theorem State.inverseRound_rspReady (s : State) : (s.inverseRound).rspReady = s.rspReady := rfl
@[simp] theorem State.inverseRound_rst (s : State) : (s.inverseRound).rst = s.rst := rfl
@[simp] theorem State.inverseRound_freeCount (s : State) : (s.inverseRound).freeCount = s.freeCount := rfl

/-! ## takeResponse -/

@[simp] theorem takeResponse_k (w : Word) (rest : List Word) (s : State) : (takeResponse w rest s).k = s.k := by
  cases rest <;> rfl
@[simp] theorem takeResponse_rounds (w : Word) (rest : List Word) (s : State) : (takeResponse w rest s).rounds = s.rounds := by
  cases rest <;> rfl
@[simp] theorem takeResponse_cfg (w : Word) (rest : List Word) (s : State) : (takeResponse w rest s).cfg = s.cfg := by
  cases rest <;> rfl
@[simp] theorem takeResponse_y (w : Word) (rest : List Word) (s : State) : (takeResponse w rest s).y = s.y := by
  cases rest <;> rfl
@[simp] theorem takeResponse_z (w : Word) (rest : List Word) (s : State) : (takeResponse w rest s).z = s.z := by
  cases rest <;> rfl
@[simp] theorem takeResponse_sum (w : Word) (rest : List Word) (s : State) : (takeResponse w rest s).sum = s.sum := by
  cases rest <;> rfl
@[simp] theorem takeResponse_ph (w : Word) (rest : List Word) (s : State) : (takeResponse w rest s).ph = s.ph := by
  cases rest <;> rfl
@[simp] theorem takeResponse_rc (w : Word) (rest : List Word) (s : State) : (takeResponse w rest s).rc = s.rc := by
  cases rest <;> rfl
@[simp] theorem takeResponse_opl (w : Word) (rest : List Word) (s : State) : (takeResponse w rest s).opl = s.opl := by
  cases rest <;> rfl
@[simp] theorem takeResponse_rx (w : Word) (rest : List Word) (s : State) : (takeResponse w rest s).rx = s.rx := by
  cases rest <;> rfl
@[simp] theorem takeResponse_rspOut (w : Word) (rest : List Word) (s : State) : (takeResponse w rest s).rspOut = rest := by
  cases rest <;> rfl
@[simp] theorem takeResponse_cmdIn (w : Word) (rest : List Word) (s : State) : (takeResponse w rest s).cmdIn = s.cmdIn := by
  cases rest <;> rfl
@[simp] theorem takeResponse_rspTaken (w : Word) (rest : List Word) (s : State) : (takeResponse w rest s).rspTaken = s.rspTaken ++ [w] := by
  cases rest <;> rfl
@[simp] theorem takeResponse_rspReady (w : Word) (rest : List Word) (s : State) : (takeResponse w rest s).rspReady = s.rspReady := by
  cases rest <;> rfl
@[simp] theorem takeResponse_rst (w : Word) (rest : List Word) (s : State) : (takeResponse w rest s).rst = s.rst := by
  cases rest <;> rfl

/-! ## The views of State -/

@[simp] theorem State.respond_eq (s : State) (op : Opcode) (items : List ResItem) : s.respond op items = s.answer op (.ok items) := rfl
@[simp] theorem State.raise_eq (s : State) (op : Opcode) (e : ErrName) : s.raise op e = s.answer op (.err e) := rfl
@[simp] theorem State.loadIB_cipher (s : State) (items : List OpItem) : (s.loadIB items).cipher = s.cipher := rfl
@[simp] theorem State.answer_cipher (s : State) (op : Opcode) (a : Answer) : (s.answer op a).cipher = s.cipher := rfl
@[simp] theorem State.writeInstance_cipher (s : State) (key : Key) (n : Word) : (s.writeInstance key n).cipher = ⟨key, n, true⟩ := rfl
@[simp] theorem State.startStep_cipher (s : State) (d : Direction) (op : Opcode) (b : Block) : (s.startStep d op b).cipher = s.cipher := rfl
@[simp] theorem State.forwardRound_cipher (s : State) : s.forwardRound.cipher = s.cipher := rfl
@[simp] theorem State.inverseRound_cipher (s : State) : s.inverseRound.cipher = s.cipher := rfl
@[simp] theorem State.forgetWorking_cipher (s : State) : s.forgetWorking.cipher = s.cipher := rfl
@[simp] theorem State.startStep_block (s : State) (d : Direction) (op : Opcode) (b : Block) : (s.startStep d op b).block = b := rfl
@[simp] theorem State.forwardRound_block (s : State) :
    s.forwardRound.block = encRound s.block (add32 s.sum Config.delta) s.k := rfl
@[simp] theorem State.inverseRound_block (s : State) : s.inverseRound.block = decRound s.block s.sum s.k := rfl

/-! ## hostMove -/

@[simp] theorem hostMove_cipher (m : HostMove) (s : State) : (hostMove m s).cipher = s.cipher := by cases m <;> rfl

/-! ## What is known of the free buffer contents: their bounds -/

@[simp] theorem State.forgetBuffers_ib_length (s : State) : s.forgetBuffers.ib.length ≤ 31 := List.length_take_le ..
@[simp] theorem State.forgetBuffers_ob_length (s : State) : s.forgetBuffers.ob.length ≤ 8 := List.length_take_le ..
@[simp] theorem State.resetEvent_ib_length (s : State) : s.resetEvent.ib.length ≤ 31 := List.length_take_le ..
@[simp] theorem State.resetEvent_ob_length (s : State) : s.resetEvent.ob.length ≤ 8 := List.length_take_le ..

end Sys2Proof.Machine
end

