-- ==== Sys2Proof/Laws/Codec.lean ====
section
/-! SUPPORT. The laws of the codec's arithmetic that proofs about rounds and sums cite. They are stated for any word, so that
no proof unfolds the constant DELTA. -/

namespace Sys2Proof.Machine

@[simp] theorem sub32_add32 (a m : Word) : sub32 (add32 a m) m = a := by simp [sub32, add32]

@[simp] theorem add32_sub32 (a m : Word) : add32 (sub32 a m) m = a := by simp [sub32, add32]

@[simp] theorem mul32_zero (a : Word) : mul32 a 0 = 0 := rfl

/-- One more round's worth of `sum`. -/
theorem mul32_succ (a : Word) (n : Nat) : mul32 a (n + 1) = add32 (mul32 a n) a := by
  apply BitVec.eq_of_toNat_eq
  simp [mul32, add32, Nat.mul_succ]

/-- One round's worth of `sum` less. -/
theorem sub32_mul32_succ (a : Word) (n : Nat) : sub32 (mul32 a (n + 1)) a = mul32 a n := by simp [mul32_succ]

/-! ## The directions -/

@[simp] theorem Direction.phase_forward : Direction.phase .forward = .runEnc := rfl
@[simp] theorem Direction.phase_inverse : Direction.phase .inverse = .runDec := rfl
@[simp] theorem Direction.startSum_forward (r : Word) : Direction.startSum .forward r = 0 := rfl
@[simp] theorem Direction.startSum_inverse (r : Word) : Direction.startSum .inverse r = mul32 Config.delta r.toNat := rfl
@[simp] theorem Direction.transform_forward : Direction.transform .forward = teaEnc := rfl
@[simp] theorem Direction.transform_inverse : Direction.transform .inverse = teaDec := rfl

/-! ## The loops -/

@[simp] theorem encLoop_zero (k : Key) (sum : Word) (b : Block) : encLoop k 0 sum b = b := rfl

theorem encLoop_succ (k : Key) (n : Nat) (sum : Word) (b : Block) :
    encLoop k (n + 1) sum b = encLoop k n (add32 sum Config.delta) (encRound b (add32 sum Config.delta) k) := rfl

@[simp] theorem decLoop_zero (k : Key) (sum : Word) (b : Block) : decLoop k 0 sum b = b := rfl

theorem decLoop_succ (k : Key) (n : Nat) (sum : Word) (b : Block) :
    decLoop k (n + 1) sum b = decLoop k n (sub32 sum Config.delta) (decRound b sum k) := rfl

end Sys2Proof.Machine
end

