-- ==== Sys2Proof/Laws/Decode.lean ====
section
/-! SUPPORT. The fields of a header the encoder builds, and the items the decoder reads back. -/

namespace Sys2Proof

/-! ## The fields as numbers -/

theorem opField_toNat (h : Word) : (opField h).toNat = h.toNat / 2 ^ 28 := by
  have := h.isLt
  simp only [opField, BitVec.extractLsb'_toNat, Nat.shiftRight_eq_div_pow]
  omega

theorem kfBit_eq (h : Word) : kfBit h = decide (h.toNat / 2 ^ 27 % 2 = 1) := by
  rw [kfBit, ← BitVec.testBit_toNat, Nat.testBit_eq_decide_div_mod_eq]

theorem rpBit_eq (h : Word) : rpBit h = decide (h.toNat / 2 ^ 26 % 2 = 1) := by
  rw [rpBit, ← BitVec.testBit_toNat, Nat.testBit_eq_decide_div_mod_eq]

theorem riBit_eq (h : Word) : riBit h = decide (h.toNat / 2 ^ 25 % 2 = 1) := by
  rw [riBit, ← BitVec.testBit_toNat, Nat.testBit_eq_decide_div_mod_eq]

theorem reservedField_toNat (h : Word) : (reservedField h).toNat = h.toNat / 2 ^ 5 % 2 ^ 20 := by
  simp [reservedField, BitVec.extractLsb'_toNat, Nat.shiftRight_eq_div_pow]

theorem lenField_eq (h : Word) : lenField h = h.toNat % 32 := by
  simp [lenField, BitVec.extractLsb'_toNat]

theorem lenField_le (h : Word) : lenField h ≤ 31 := by
  rw [lenField_eq]
  omega

/-! ## The fields of an encoded header -/

/-- Concatenation as arithmetic. -/
theorem append_toNat {n m : Nat} (x : BitVec n) (y : BitVec m) : (x ++ y).toNat = x.toNat * 2 ^ m + y.toNat := by
  rw [BitVec.toNat_append, ← Nat.shiftLeft_add_eq_or_of_lt y.isLt, Nat.shiftLeft_eq]

/-- "Header arithmetic: OP * 2^28 + KF * 2^27 + RP * 2^26 + RI * 2^25 + LEN" (R86). -/
theorem mkHeader_toNat (op : Opcode) (kf rp ri : Bool) {len : Nat} (hl : len < 32) :
    (mkHeader op kf rp ri len).toNat =
      op.toNat * 2 ^ 28 + kf.toNat * 2 ^ 27 + rp.toNat * 2 ^ 26 + ri.toNat * 2 ^ 25 + len := by
  unfold mkHeader
  rw [append_toNat, append_toNat, append_toNat, append_toNat, append_toNat]
  simp only [BitVec.toNat_ofBool, BitVec.toNat_ofNat, BitVec.ofNat_eq_ofNat]
  omega

/-- Every field of an encoded header reads back. -/
theorem mkHeader_fields (op : Opcode) (kf rp ri : Bool) {len : Nat} (hl : len < 32) :
    opField (mkHeader op kf rp ri len) = op ∧ kfBit (mkHeader op kf rp ri len) = kf ∧
      rpBit (mkHeader op kf rp ri len) = rp ∧ riBit (mkHeader op kf rp ri len) = ri ∧
      reservedField (mkHeader op kf rp ri len) = 0 ∧ lenField (mkHeader op kf rp ri len) = len := by
  have hn := mkHeader_toNat op kf rp ri hl
  have hop := op.isLt
  refine ⟨BitVec.eq_of_toNat_eq ?_, ?_, ?_, ?_, BitVec.eq_of_toNat_eq ?_, ?_⟩
  · rw [opField_toNat, hn]
    cases kf <;> cases rp <;> cases ri <;> simp <;> omega
  · rw [kfBit_eq, hn]
    cases kf <;> cases rp <;> cases ri <;> simp <;> omega
  · rw [rpBit_eq, hn]
    cases kf <;> cases rp <;> cases ri <;> simp <;> omega
  · rw [riBit_eq, hn]
    cases kf <;> cases rp <;> cases ri <;> simp <;> omega
  · rw [reservedField_toNat, hn]
    cases kf <;> cases rp <;> cases ri <;> simp <;> omega
  · rw [lenField_eq, hn]
    cases kf <;> cases rp <;> cases ri <;> simp <;> omega

/-- `F(H)` of an encoded header. -/
theorem followCount_mkHeader (op : Opcode) (kf rp ri : Bool) {len : Nat} (hl : len < 32) :
    followCount (mkHeader op kf rp ri len) = rp.toNat + kf.toNat + len := by
  obtain ⟨-, hk, hr, -, -, hlen⟩ := mkHeader_fields op kf rp ri hl
  simp [followCount, hk, hr, hlen]

/-! ## Items -/

/-- Byte items read back. -/
theorem byteItems_byteWord (b : List Byte) : byteItems (b.map byteWord) = .ok b := by
  have hz : ∀ x : Byte, (byteWord x).extractLsb' 8 24 = 0 := by decide
  have hb : ∀ x : Byte, (byteWord x).extractLsb' 0 8 = x := by decide
  simp [byteItems, List.all_map, Function.comp_def, hz, hb, List.map_map]

/-- Everything `byteItems` can do: read every word's low byte, or refuse a word with a bit above bit 7. -/
theorem byteItems_cases (ws : List Word) :
    (byteItems ws = .ok (ws.map (fun w => w.extractLsb' 0 8)) ∧ ∀ w ∈ ws, w.toNat < 256) ∨
      (byteItems ws = .error .byteItem ∧ ∃ w ∈ ws, 256 ≤ w.toNat) := by
  have hw : ∀ w : Word, (w.extractLsb' 8 24 == 0) = true ↔ w.toNat < 256 := by
    intro w
    have := w.isLt
    rw [beq_iff_eq, ← BitVec.toNat_inj]
    simp only [BitVec.extractLsb'_toNat, Nat.shiftRight_eq_div_pow, BitVec.ofNat_eq_ofNat, BitVec.toNat_ofNat]
    omega
  by_cases ha : ws.all (fun w => w.extractLsb' 8 24 == 0) = true
  · exact .inl ⟨by rw [byteItems, if_pos ha], fun w hm => (hw w).mp (List.all_eq_true.mp ha w hm)⟩
  · refine .inr ⟨by rw [byteItems, if_neg ha], ?_⟩
    by_contra hc
    push Not at hc
    exact ha (List.all_eq_true.mpr fun w hm => (hw w).mpr (hc w hm))

/-- Everything `takeRounds` can do: no operand, or one word of it, or refuse where that word is missing. -/
theorem takeRounds_cases (h : Word) (ws : List Word) :
    (rpBit h = false ∧ takeRounds h ws = .ok (.absent, ws)) ∨
      (∃ v rest, rpBit h = true ∧ ws = v :: rest ∧
        takeRounds h ws = .ok (if riBit h then .int v.toInt else .nonInt, rest)) ∨
      (rpBit h = true ∧ ws = [] ∧ takeRounds h ws = .error .wordCount) := by
  cases hr : rpBit h with
  | false => exact .inl ⟨rfl, by simp [takeRounds, hr]⟩
  | true =>
    cases ws with
    | nil => exact .inr (.inr ⟨rfl, rfl, by simp [takeRounds, hr]⟩)
    | cons v rest => exact .inr (.inl ⟨v, rest, rfl, rfl, by simp [takeRounds, hr]⟩)

/-- The number of elements read is the number of item words. -/
@[simp] theorem keyElems_length (emask : Word) (i : Nat) (ws : List Word) : (keyElems emask i ws).length = ws.length := by
  induction ws generalizing i with
  | nil => rfl
  | cons w ws ih => simp [keyElems, ih]

/-- Element `j` is tagged by `EMASK` bit `i + j`. -/
theorem keyElems_get (emask : Word) (i j : Nat) (ws : List Word) :
    (keyElems emask i ws)[j]? = ws[j]?.map (fun w => if emask.getLsbD (i + j) then .int w else .nonInt) := by
  induction ws generalizing i j with
  | nil => simp [keyElems]
  | cons w ws ih =>
    cases j with
    | zero => simp [keyElems]
    | succ j => simp [keyElems, ih, Nat.add_assoc, Nat.add_comm 1 j]

theorem emaskNat_lt (key : List KeyElem) : emaskNat key < 2 ^ key.length := by
  induction key with
  | nil => simp [emaskNat]
  | cons e es ih =>
    have := e.tag.toNat_le
    simp only [emaskNat, List.length_cons, Nat.pow_succ]
    omega

/-- Bit `j` of the encoder's `EMASK` is the tag of element `j`. -/
theorem emaskNat_testBit (key : List KeyElem) (j : Nat) (hj : j < key.length) :
    (emaskNat key).testBit j = (key[j]).tag := by
  induction key generalizing j with
  | nil => simp at hj
  | cons e es ih =>
    cases j with
    | zero => cases h : e.tag <;> simp [emaskNat, h, Nat.testBit_zero]
    | succ j =>
      have hd : (emaskNat (e :: es)) / 2 = emaskNat es := by
        have := e.tag.toNat_le
        simp only [emaskNat]
        omega
      rw [Nat.testBit_succ, hd]
      simpa using ih j (by simpa using hj)

/-- The encoder's `EMASK` word holds the tags. -/
theorem emaskWord_getLsbD (key : List KeyElem) (hk : key.length ≤ 31) (j : Nat) (hj : j < key.length) :
    (emaskWord key).getLsbD j = (key[j]).tag := by
  rw [← emaskNat_testBit key j hj]
  simp only [emaskWord, BitVec.getLsbD_ofNat, Bool.and_eq_right_iff_imp, decide_eq_true_eq]
  omega

/-- The elements read back from the encoder's words. -/
theorem keyElems_encoded (key : List KeyElem) (hk : key.length ≤ 31) :
    keyElems (emaskWord key) 0 (key.map KeyElem.word) = key := by
  apply List.ext_getElem?
  intro j
  rw [keyElems_get, Nat.zero_add]
  by_cases hj : j < key.length
  · rw [emaskWord_getLsbD key hk j hj]
    simp only [List.getElem?_map, List.getElem?_eq_getElem hj, Option.map_some]
    cases key[j] <;> simp [KeyElem.tag, KeyElem.word]
  · simp [List.getElem?_eq_none (Nat.le_of_not_lt hj)]

/-! ## decode -/

/-- Decoding words of the right number, reserved bits aside: the operation code alone selects. -/
theorem decode_eq (h : Word) (ws : List Word) (hl : ws.length = followCount h) (hr : reservedField h = 0) :
    decode h ws =
      match (opField h).toNat with
      | 1 => decodeQuery .keysize h
      | 2 => decodeQuery .blocksize h
      | 3 => decodeNew h ws
      | 4 => decodeBytes .encrypt h ws
      | 5 => decodeBytes .decrypt h ws
      | 6 => decodeWords .encryptBlock h ws
      | 7 => decodeWords .decryptBlock h ws
      | _ => .error .unusedOpcode :=
  (if_neg (not_not.mpr hr)).trans (if_neg (not_not.mpr hl))

end Sys2Proof
end

