-- ==== Sys2Proof/Laws/Operands.lean ====
section
/-! SUPPORT. What the operand views and the byte conversions give: the operand buffer reads back as what was loaded, and
UNPACK on the two lengths the commands use. -/

namespace Sys2Proof.Machine

@[simp] theorem State.ibBytes_loadIB (s : State) (b : List Byte) : (s.loadIB (b.map .byte)).ibBytes = b := by
  simp [State.ibBytes, List.filterMap_map, Function.comp_def, OpItem.byte?]

@[simp] theorem State.ibWords_loadIB (s : State) (w : List Word) : (s.loadIB (w.map .word)).ibWords = w := by
  simp [State.ibWords, List.filterMap_map, Function.comp_def, OpItem.word?]

@[simp] theorem State.ibElems_loadIB (s : State) (e : List KeyElem) : (s.loadIB (e.map .elem)).ibElems = e := by
  simp [State.ibElems, List.filterMap_map, Function.comp_def, OpItem.elem?]

/-- A list of eight, taken apart. -/
theorem eight_of_length {α : Type} {l : List α} (h : l.length = 8) :
    ∃ b0 b1 b2 b3 b4 b5 b6 b7, l = [b0, b1, b2, b3, b4, b5, b6, b7] := by
  match l, h with
  | [b0, b1, b2, b3, b4, b5, b6, b7], _ => exact ⟨b0, b1, b2, b3, b4, b5, b6, b7, rfl⟩

/-- A list of sixteen, taken apart. -/
theorem sixteen_of_length {α : Type} {l : List α} (h : l.length = 16) :
    ∃ b0 b1 b2 b3 b4 b5 b6 b7 b8 b9 b10 b11 b12 b13 b14 b15,
      l = [b0, b1, b2, b3, b4, b5, b6, b7, b8, b9, b10, b11, b12, b13, b14, b15] := by
  match l, h with
  | [b0, b1, b2, b3, b4, b5, b6, b7, b8, b9, b10, b11, b12, b13, b14, b15], _ =>
    exact ⟨b0, b1, b2, b3, b4, b5, b6, b7, b8, b9, b10, b11, b12, b13, b14, b15, rfl⟩

/-- UNPACK of an 8-byte block buffer. -/
theorem unpack_eight (b0 b1 b2 b3 b4 b5 b6 b7 : Byte) :
    unpack [b0, b1, b2, b3, b4, b5, b6, b7] = [be32 b0 b1 b2 b3, be32 b4 b5 b6 b7] := by
  simp [unpack, memRead, List.range_succ]

/-- UNPACK of a 16-byte key buffer. -/
theorem unpack_sixteen (b0 b1 b2 b3 b4 b5 b6 b7 b8 b9 b10 b11 b12 b13 b14 b15 : Byte) :
    unpack [b0, b1, b2, b3, b4, b5, b6, b7, b8, b9, b10, b11, b12, b13, b14, b15] =
      [be32 b0 b1 b2 b3, be32 b4 b5 b6 b7, be32 b8 b9 b10 b11, be32 b12 b13 b14 b15] := by
  simp [unpack, memRead, List.range_succ]

/-- An 8-byte buffer unpacks to two words. -/
theorem unpack_two_words {b : List Byte} (h : b.length = 8) : ∃ y z, unpack b = [y, z] := by
  obtain ⟨b0, b1, b2, b3, b4, b5, b6, b7, rfl⟩ := eight_of_length h
  exact ⟨_, _, unpack_eight ..⟩

/-- `PACK` leaves the four bytes of `y`, then the four bytes of `z`. -/
theorem pack_eq (b : Block) : pack b = (bytes32 b.y ++ bytes32 b.z).map .byte := rfl

@[simp] theorem pack_length (b : Block) : (pack b).length = 8 := rfl

@[simp] theorem wordItems_length (b : Block) : (wordItems b).length = 2 := rfl

@[simp] theorem Key.words_length (k : Key) : k.words.length = 4 := rfl

end Sys2Proof.Machine
end

