-- ==== Sys2Proof/Laws/Flags.lean ====
section
/-! SUPPORT. The words of the responses the commands give (30_encoding.md R80). -/

namespace Sys2Proof.Machine

/-- An error's response is one word. -/
@[simp] theorem responseWords_err (op : Opcode) (e : ErrName) :
    responseWords op (.err e) = [statusWord true op e.code 0] := rfl

/-- A response without items. -/
@[simp] theorem responseWords_none (op : Opcode) : responseWords op (.ok []) = [statusWord false op 0 0] := rfl

/-- The response of a byte-form transform. -/
@[simp] theorem responseWords_pack (op : Opcode) (b : Block) :
    responseWords op (.ok (pack b)) = statusWord false op 0 8 :: (bytes32 b.y ++ bytes32 b.z).map byteWord := by
  simp only [responseWords, pack_eq, List.map_map]
  rfl

/-- The response of a word-form transform. -/
@[simp] theorem responseWords_wordItems (op : Opcode) (b : Block) :
    responseWords op (.ok (wordItems b)) = [statusWord false op 0 2, b.y, b.z] := rfl

/-- A response has at least its status word. -/
theorem responseWords_ne_nil (op : Opcode) (a : Answer) : responseWords op a ≠ [] := by cases a <;> simp [responseWords]

/-- The success status words (30_encoding.md R80). -/
theorem statusWord_success :
    statusWord false 1 0 1 = 0x01000001 ∧ statusWord false 2 0 1 = 0x02000001 ∧ statusWord false 3 0 0 = 0x03000000 ∧
      statusWord false 4 0 8 = 0x04000008 ∧ statusWord false 5 0 8 = 0x05000008 ∧ statusWord false 6 0 2 = 0x06000002 ∧
      statusWord false 7 0 2 = 0x07000002 := by decide

/-! ## The port outputs (70_reset_and_hazards.md R210) -/

theorem State.busy_eq_true_iff (s : State) : s.busy = true ↔ s.rx ≠ [] ∨ s.ph ≠ .idle ∨ s.rspOut ≠ [] := by
  simp [State.busy, or_assoc]

theorem State.busy_eq_false_iff (s : State) : s.busy = false ↔ s.rx = [] ∧ s.ph = .idle ∧ s.rspOut = [] := by
  simp [State.busy, and_assoc]

theorem State.cmdReady_eq_true_iff (s : State) : s.cmdReady = true ↔ s.rst = false ∧ s.ph = .idle ∧ s.rspOut = [] := by
  simp [State.cmdReady, and_assoc]

theorem State.rspValid_eq_true_iff (s : State) : s.rspValid = true ↔ s.rst = false ∧ s.rspOut ≠ [] := by
  simp [State.rspValid]

end Sys2Proof.Machine
end

