-- ==== Sys2Proof/Laws/WellFormed.lean ====
section
/-! SUPPORT. The well-formedness checks as propositions. -/

namespace Sys2Proof

@[simp] theorem itemsFit_iff {α : Type} (l : List α) : itemsFit l = true ↔ l.length ≤ 31 := decide_eq_true_iff

@[simp] theorem RoundsArg.wf_absent : RoundsArg.wf .absent = true := rfl

@[simp] theorem RoundsArg.wf_nonInt : RoundsArg.wf .nonInt = true := rfl

@[simp] theorem RoundsArg.wf_int_iff (v : Int) : RoundsArg.wf (.int v) = true ↔ -2147483648 ≤ v ∧ v ≤ 2147483647 := by
  rw [RoundsArg.wf, Bool.and_eq_true]
  exact and_congr decide_eq_true_iff decide_eq_true_iff

@[simp] theorem Instr.wf_keysize : Instr.wf .keysize = true := rfl

@[simp] theorem Instr.wf_blocksize : Instr.wf .blocksize = true := rfl

@[simp] theorem Instr.wf_newBytes (key : List Byte) (r : RoundsArg) :
    Instr.wf (.newBytes key r) = true ↔ key.length ≤ 31 ∧ r.wf = true := by simp [Instr.wf]

@[simp] theorem Instr.wf_newWords (key : List KeyElem) (r : RoundsArg) :
    Instr.wf (.newWords key r) = true ↔ key.length ≤ 31 ∧ r.wf = true := by simp [Instr.wf]

@[simp] theorem Instr.wf_encrypt (b : List Byte) : Instr.wf (.encrypt b) = true ↔ b.length ≤ 31 := by simp [Instr.wf]

@[simp] theorem Instr.wf_decrypt (b : List Byte) : Instr.wf (.decrypt b) = true ↔ b.length ≤ 31 := by simp [Instr.wf]

@[simp] theorem Instr.wf_encryptBlock (w : List Word) : Instr.wf (.encryptBlock w) = true ↔ w.length ≤ 31 := by
  simp [Instr.wf]

@[simp] theorem Instr.wf_decryptBlock (w : List Word) : Instr.wf (.decryptBlock w) = true ↔ w.length ≤ 31 := by
  simp [Instr.wf]

end Sys2Proof
end

