-- ==== Sys2Proof/Laws/Ops.lean ====
section
/-! SUPPORT. What the shared operations and exec can do, said once: proofs cite these lemmas instead of unfolding. -/

namespace Sys2Proof.Machine

/-! ## The boundary check and the entry to the codec -/

/-- The key is four registers, so only the block's count is ever refused. -/
theorem codecCheck_two (k : Key) (y z : Word) : codecCheck k.words [y, z] = .ok ⟨y, z⟩ := rfl

theorem codecCheck_other (k : Key) {w : List Word} (h : w.length ≠ 2) : codecCheck k.words w = .error .malformedBlock := by
  match w, h with
  | [], _ => rfl
  | [_], _ => rfl
  | [_, _], h => exact absurd rfl h
  | _ :: _ :: _ :: _, _ => rfl

@[simp] theorem enterCodec_two (d : Direction) (op : Opcode) (y z : Word) (s : State) :
    enterCodec d op [y, z] s = .next (s.startStep d op ⟨y, z⟩) := rfl

theorem enterCodec_other (d : Direction) (op : Opcode) (s : State) {w : List Word} (h : w.length ≠ 2) :
    enterCodec d op w s = .next (s.answer op (.err .malformedBlock)) := by
  simp [enterCodec, codecCheck_other _ h]

/-! ## The shared shapes of the commands -/

/-- The items a command has in `IB`. -/
def operandItems : Instr → List OpItem
  | .keysize => []
  | .blocksize => []
  | .newBytes key _ => key.map .byte
  | .newWords key _ => key.map .elem
  | .encrypt b => b.map .byte
  | .decrypt b => b.map .byte
  | .encryptBlock w => w.map .word
  | .decryptBlock w => w.map .word

/-- The result items of a transform, by its command (41_block_codec.md R136). -/
def itemsOf (i : Instr) (b : Block) : List ResItem :=
  match i with
  | .encrypt _ => pack b
  | .decrypt _ => pack b
  | _ => wordItems b

/-- The direction of a transform command. -/
def directionOf : Instr → Direction
  | .decrypt _ => .inverse
  | .decryptBlock _ => .inverse
  | _ => .forward

/-- Everything `finishNew` can do: it fails and only answers, or it writes the instance and answers. -/
theorem finishNew_cases (key : Except ErrName Key) (r : RoundsArg) (s : State) :
    (∃ e, checkNew key r = .error e ∧ finishNew key r s = .next (s.answer 3 (.err e))) ∨
      ∃ k n, checkNew key r = .ok (k, n) ∧ finishNew key r s = .next ((s.writeInstance k n).answer 3 (.ok [])) := by
  rcases h : checkNew key r with e | ⟨k, n⟩
  · exact .inl ⟨e, rfl, by simp [finishNew, h]⟩
  · exact .inr ⟨k, n, rfl, by simp [finishNew, h]⟩

/-- Everything a word-form transform can do: it fails and only answers, or it starts. -/
theorem transformWords_cases (d : Direction) (op : Opcode) (w : List Word) (s : State) :
    (∃ e, transformWords d op w s = .next ((s.loadIB (w.map .word)).answer op (.err e)) ∧
        answerWords d w s.cipher = .err e) ∨
      ∃ b, transformWords d op w s = .next ((s.loadIB (w.map .word)).startStep d op b) ∧ s.cfg = true ∧
        answerWords d w s.cipher = .ok (wordItems (d.transform b s.k s.rounds.toNat)) := by
  by_cases hc : s.cfg = true
  · by_cases hw : w.length = 2
    · match w, hw with
      | [y, z], _ =>
        refine .inr ⟨⟨y, z⟩, ?_, hc, ?_⟩
        · have h := State.ibWords_loadIB s [y, z]
          simp only [transformWords, State.loadIB_cfg, hc, if_true, h, enterCodec_two]
        · simp [answerWords, State.cipher, hc, codecCheck_two]
    · refine .inl ⟨.malformedBlock, ?_, ?_⟩
      · simp [transformWords, hc, enterCodec_other _ _ _ hw]
      · simp [answerWords, State.cipher, hc, codecCheck_other _ hw]
  · refine .inl ⟨.notConfigured, ?_, ?_⟩ <;> simp [transformWords, answerWords, State.cipher, hc]

/-- Everything a byte-form transform can do: it fails and only answers, or it starts. -/
theorem transformBytes_cases (d : Direction) (op : Opcode) (b : List Byte) (s : State) :
    (∃ e, transformBytes d op b s = .next ((s.loadIB (b.map .byte)).answer op (.err e)) ∧
        answerBytes d b s.cipher = .err e) ∨
      ∃ blk, transformBytes d op b s = .next ((s.loadIB (b.map .byte)).startStep d op blk) ∧ s.cfg = true ∧
        answerBytes d b s.cipher = .ok (pack (d.transform blk s.k s.rounds.toNat)) := by
  by_cases hc : s.cfg = true
  · by_cases hb : b.length = 8
    · obtain ⟨y, z, hu⟩ := unpack_two_words hb
      refine .inr ⟨⟨y, z⟩, ?_, hc, ?_⟩
      · simp [transformBytes, hc, hb, hu, Config.blockSize]
      · simp [answerBytes, State.cipher, hc, hb, hu, codecCheck_two, Config.blockSize]
    · refine .inl ⟨.invalidBlockLength, ?_, ?_⟩ <;> simp [transformBytes, answerBytes, State.cipher, hc, hb, Config.blockSize]
  · refine .inl ⟨.notConfigured, ?_, ?_⟩ <;> simp [transformBytes, answerBytes, State.cipher, hc]

/-! ## exec -/

theorem exec_newBytes (key : List Byte) (r : RoundsArg) (s : State) :
    exec (.newBytes key r) s = finishNew (ksBytes key) r (s.loadIB (key.map .byte)) := by simp [exec, execNewBytes]

theorem exec_newWords (key : List KeyElem) (r : RoundsArg) (s : State) :
    exec (.newWords key r) s = finishNew (ksWords key) r (s.loadIB (key.map .elem)) := by simp [exec, execNewWords]

/-- Everything `exec` can do, beside the transaction it belongs to: answer and change nothing else, write the instance and
answer success, or start a transform. It never stops. -/
theorem exec_cases (i : Instr) (s : State) :
    (∃ a, exec i s = .next ((s.loadIB (operandItems i)).answer i.opcode a) ∧ transact i s.cipher = (s.cipher, a) ∧
      (isNew i = true ∨ isTransform i = true → ∃ e, a = .err e)) ∨
    (∃ k n, exec i s = .next (((s.loadIB (operandItems i)).writeInstance k n).answer i.opcode (.ok [])) ∧
      isNew i = true ∧ transact i s.cipher = (⟨k, n, true⟩, .ok [])) ∨
    ∃ b, exec i s = .next ((s.loadIB (operandItems i)).startStep (directionOf i) i.opcode b) ∧ isTransform i = true ∧
      s.cfg = true ∧
      transact i s.cipher = (s.cipher, .ok (itemsOf i ((directionOf i).transform b s.k s.rounds.toNat))) := by
  cases i with
  | keysize => exact .inl ⟨_, rfl, rfl, by simp [isNew, isTransform]⟩
  | blocksize => exact .inl ⟨_, rfl, rfl, by simp [isNew, isTransform]⟩
  | newBytes key r =>
    rcases finishNew_cases (ksBytes key) r (s.loadIB (key.map .byte)) with ⟨e, hk, h⟩ | ⟨k, n, hk, h⟩
    · exact .inl ⟨.err e, (exec_newBytes key r s).trans h, by simp [transact, transactNew, hk], fun _ => ⟨e, rfl⟩⟩
    · exact .inr (.inl ⟨k, n, (exec_newBytes key r s).trans h, rfl, by simp [transact, transactNew, hk]⟩)
  | newWords key r =>
    rcases finishNew_cases (ksWords key) r (s.loadIB (key.map .elem)) with ⟨e, hk, h⟩ | ⟨k, n, hk, h⟩
    · exact .inl ⟨.err e, (exec_newWords key r s).trans h, by simp [transact, transactNew, hk], fun _ => ⟨e, rfl⟩⟩
    · exact .inr (.inl ⟨k, n, (exec_newWords key r s).trans h, rfl, by simp [transact, transactNew, hk]⟩)
  | encrypt b =>
    rcases transformBytes_cases .forward 4 b s with ⟨e, h, ha⟩ | ⟨blk, h, hc, ha⟩
    · exact .inl ⟨_, h, by simp [transact, ha], fun _ => ⟨e, rfl⟩⟩
    · exact .inr (.inr ⟨blk, h, rfl, hc, by simp [transact, ha, itemsOf, directionOf]⟩)
  | decrypt b =>
    rcases transformBytes_cases .inverse 5 b s with ⟨e, h, ha⟩ | ⟨blk, h, hc, ha⟩
    · exact .inl ⟨_, h, by simp [transact, ha], fun _ => ⟨e, rfl⟩⟩
    · exact .inr (.inr ⟨blk, h, rfl, hc, by simp [transact, ha, itemsOf, directionOf]⟩)
  | encryptBlock w =>
    rcases transformWords_cases .forward 6 w s with ⟨e, h, ha⟩ | ⟨blk, h, hc, ha⟩
    · exact .inl ⟨_, h, by simp [transact, ha], fun _ => ⟨e, rfl⟩⟩
    · exact .inr (.inr ⟨blk, h, rfl, hc, by simp [transact, ha, itemsOf, directionOf]⟩)
  | decryptBlock w =>
    rcases transformWords_cases .inverse 7 w s with ⟨e, h, ha⟩ | ⟨blk, h, hc, ha⟩
    · exact .inl ⟨_, h, by simp [transact, ha], fun _ => ⟨e, rfl⟩⟩
    · exact .inr (.inr ⟨blk, h, rfl, hc, by simp [transact, ha, itemsOf, directionOf]⟩)

/-- Whatever a command does, the block is busy after it: it has a response to give, or a transform to run. -/
theorem exec_next_busy (i : Instr) (s : State) : ∃ t, exec i s = .next t ∧ t.busy = true := by
  rcases exec_cases i s with ⟨a, h, _⟩ | ⟨k, n, h, _⟩ | ⟨b, h, _⟩
  · exact ⟨_, h, by simp [State.busy_eq_true_iff, responseWords_ne_nil]⟩
  · exact ⟨_, h, by simp [State.busy_eq_true_iff]⟩
  · exact ⟨_, h, by cases hd : directionOf i <;> simp [State.busy_eq_true_iff, State.startStep]⟩

end Sys2Proof.Machine
end

