-- ==== Sys2Proof/Laws/PerInstr.lean ====
section
/-! SUPPORT. Statements for all instructions, one lemma per constructor: the encoder sends exactly the `F(H)` following words
its header announces (30_encoding.md R72). -/

namespace Sys2Proof.Laws.EncodeFrames

/-- The words that follow an encoded header are as many as the header announces. -/
def Statement (i : Instr) : Prop := i.wf = true → i.following.length = followCount i.header

/-- The words of a rounds operand are as many as `RP` says. -/
theorem rounds_words_length (r : RoundsArg) : r.words.length = r.present.toNat := by cases r <;> rfl

theorem keysize : Statement .keysize := fun _ => by decide

theorem blocksize : Statement .blocksize := fun _ => by decide

theorem newBytes (key : List Byte) (r : RoundsArg) : Statement (.newBytes key r) := by
  intro h
  rw [Instr.wf_newBytes] at h
  simp [Instr.following, Instr.header, followCount_mkHeader _ _ _ _ (Nat.lt_succ_of_le h.1), rounds_words_length]

theorem newWords (key : List KeyElem) (r : RoundsArg) : Statement (.newWords key r) := by
  intro h
  rw [Instr.wf_newWords] at h
  simp only [Instr.following, Instr.header, followCount_mkHeader _ _ _ _ (Nat.lt_succ_of_le h.1), List.length_append,
    List.length_cons, List.length_map, rounds_words_length, Bool.toNat_true]
  omega

theorem encrypt (b : List Byte) : Statement (.encrypt b) := by
  intro h
  rw [Instr.wf_encrypt] at h
  simp [Instr.following, Instr.header, followCount_mkHeader _ _ _ _ (Nat.lt_succ_of_le h)]

theorem decrypt (b : List Byte) : Statement (.decrypt b) := by
  intro h
  rw [Instr.wf_decrypt] at h
  simp [Instr.following, Instr.header, followCount_mkHeader _ _ _ _ (Nat.lt_succ_of_le h)]

theorem encryptBlock (w : List Word) : Statement (.encryptBlock w) := by
  intro h
  rw [Instr.wf_encryptBlock] at h
  simp [Instr.following, Instr.header, followCount_mkHeader _ _ _ _ (Nat.lt_succ_of_le h)]

theorem decryptBlock (w : List Word) : Statement (.decryptBlock w) := by
  intro h
  rw [Instr.wf_decryptBlock] at h
  simp [Instr.following, Instr.header, followCount_mkHeader _ _ _ _ (Nat.lt_succ_of_le h)]

end Sys2Proof.Laws.EncodeFrames
end

