-- ==== Sys2Proof/Laws/Step.lean ====
section
/-! SUPPORT. What a step can do, said once, and how runs of steps compose. -/

namespace Sys2Proof.Machine

/-! ## Runs -/

@[simp] theorem steps_zero (s : State) : steps 0 s = .next s := rfl

theorem steps_succ_of_next {s t : State} (h : step s = .next t) (n : Nat) : steps (n + 1) s = steps n t := by
  simp [steps, h]

/-- A run of `m + n` steps is a run of `m` steps, then one of `n`. -/
theorem steps_add {s t : State} (m n : Nat) (h : steps m s = .next t) : steps (m + n) s = steps n t := by
  induction m generalizing s with
  | zero =>
    simp only [steps_zero, Host.Outcome.next.injEq] at h
    subst h
    simp
  | succ m ih =>
    rcases hs : step s with u | r | r
    · rw [steps_succ_of_next hs] at h
      rw [Nat.add_right_comm, steps_succ_of_next hs]
      exact ih h
    · simp [steps, hs] at h
    · simp [steps, hs] at h

/-- The model's runs are the host's. -/
theorem core_run_eq_steps (n : Nat) (s : State) : Sys2Proof.core.run n s = steps n s := by
  induction n generalizing s with
  | zero => rfl
  | succ n ih =>
    have hcore : Sys2Proof.core.step s = step s := rfl
    rcases hs : step s with u | r | r
    · simp only [Host.Core.run, steps, hcore, hs]
      exact ih u
    · simp only [Host.Core.run, steps, hcore, hs]
      rfl
    · simp only [Host.Core.run, steps, hcore, hs]
      rfl

/-! ## One step, by its phase -/

theorem step_reset {s : State} (h : s.rst = true) : step s = .next s.resetEvent := by simp [step, h]

theorem step_idle {s : State} (hr : s.rst = false) (hp : s.ph = .idle) : step s = idleStep s := by simp [step, hr, hp]

theorem step_runEnc {s : State} (hr : s.rst = false) (hp : s.ph = .runEnc) :
    step s = runningStep State.forwardRound s := by simp [step, hr, hp]

theorem step_runDec {s : State} (hr : s.rst = false) (hp : s.ph = .runDec) :
    step s = runningStep State.inverseRound s := by simp [step, hr, hp]

/-- The state after a completion step that answers `items` (41_block_codec.md R136). -/
def completed (s : State) (items : List ResItem) : State :=
  { (s.answer s.opl (.ok items)).forgetWorking with ph := .idle }

/-- Everything a step in a running phase can do, guards included. -/
theorem runningStep_cases (round : State → State) (s : State) :
    (s.rc.toNat < s.rounds.toNat ∧ runningStep round s = .next (round s)) ∨
    (∃ items, s.rc = s.rounds ∧ resultItems s.opl s.block = some items ∧
      runningStep round s = .next (completed s items)) ∨
    (s.rc = s.rounds ∧ resultItems s.opl s.block = none ∧ runningStep round s = .fault .oplNotTransform) ∨
    (s.rounds.toNat < s.rc.toNat ∧ runningStep round s = .fault .rcPastRounds) := by
  by_cases hlt : s.rc.toNat < s.rounds.toNat
  · exact .inl ⟨hlt, by simp [runningStep, hlt]⟩
  · by_cases he : s.rc = s.rounds
    · rcases hi : resultItems s.opl s.block with _ | items
      · exact .inr (.inr (.inl ⟨he, rfl, by simp [runningStep, completionStep, he, hi]⟩))
      · exact .inr (.inl ⟨items, he, rfl, by simp [runningStep, completionStep, completed, he, hi]⟩)
    · refine .inr (.inr (.inr ⟨?_, by simp [runningStep, hlt, he]⟩))
      have : s.rc.toNat ≠ s.rounds.toNat := fun h => he (BitVec.eq_of_toNat_eq h)
      omega

/-- Everything a step in phase IDLE can do: hand a response word over, wait, take a word of a command that is not yet whole,
run a whole command, or refuse words that spell none. -/
theorem idleStep_cases (s : State) :
    (∃ w rest, s.rspOut = w :: rest ∧ s.rspReady = true ∧ idleStep s = .next (takeResponse w rest s)) ∨
    (((∃ w rest, s.rspOut = w :: rest ∧ s.rspReady = false) ∨ (s.rspOut = [] ∧ s.cmdIn = [])) ∧ idleStep s = .next s) ∨
    ∃ w rest h ws, s.rspOut = [] ∧ s.cmdIn = w :: rest ∧ frameWith s.rx w = (h, ws) ∧
      ((ws.length < followCount h ∧ idleStep s = .next { s with cmdIn := rest, rx := h :: ws }) ∨
        (followCount h ≤ ws.length ∧ ∃ i, decode h ws = .ok i ∧ idleStep s = exec i { s with cmdIn := rest, rx := [] }) ∨
        (followCount h ≤ ws.length ∧ ∃ e, decode h ws = .error e ∧
          idleStep s = .next (({ s with cmdIn := rest, rx := [] } : State).answer (opField h) (.err .illegalCommand)))) := by
  rcases ho : s.rspOut with _ | ⟨w, rest⟩
  · rcases hc : s.cmdIn with _ | ⟨w, rest⟩
    · exact .inr (.inl ⟨.inr ⟨rfl, rfl⟩, by simp [idleStep, ho, hc]⟩)
    · obtain ⟨h, ws, hf⟩ : ∃ h ws, frameWith s.rx w = (h, ws) := ⟨_, _, rfl⟩
      refine .inr (.inr ⟨w, rest, h, ws, rfl, rfl, hf, ?_⟩)
      by_cases hl : ws.length < followCount h
      · exact .inl ⟨hl, by simp [idleStep, ho, hc, acceptWord, hf, hl]⟩
      · rcases hd : decode h ws with e | i
        · exact .inr (.inr ⟨by omega, e, rfl, by simp [idleStep, ho, hc, acceptWord, hf, hl, deliver, hd, illegalCommand]⟩)
        · exact .inr (.inl ⟨by omega, i, rfl, by simp [idleStep, ho, hc, acceptWord, hf, hl, deliver, hd]⟩)
  · by_cases hr : s.rspReady = true
    · exact .inl ⟨w, rest, rfl, hr, by simp [idleStep, ho, hr]⟩
    · exact .inr (.inl ⟨.inl ⟨w, rest, rfl, by simpa using hr⟩, by simp [idleStep, ho, hr]⟩)

end Sys2Proof.Machine
end

