-- ==== Sys2Proof/Tests/Slice0.lean ====
section
/-! SUPPORT. Tests: expected results are the spec's (95_test_vectors.md, the examples of its rules, or words written out from
30_encoding.md R71 to R75), never the model's own. After them, for every statement that has hypotheses, a witness that
meets them. -/

namespace Sys2Proof.Tests

open Sys2Proof.Machine

-- One theorem at a time: elaborated side by side, these many kernel evaluations hold a thread each.
set_option Elab.async false

/-! ## Small states -/

/-- The key of 95_test_vectors.md P2. -/
def keyP2 : Key := ⟨0x00010203, 0x04050607, 0x08090A0B, 0x0C0D0E0F⟩

/-- The Cipher of P2: that key, 2 rounds. -/
def cipherP2 : Cipher := ⟨keyP2, 2, true⟩

/-- A block that holds the instance of P2. -/
def loaded : State := { State.reset with k := keyP2, rounds := 2, cfg := true }

/-- P2 command 2 after its start step and `rc` rounds, `sum`, `y`, `z` being the spec's trace T2. -/
def runningEnc (rc sum y z : Word) : State :=
  { loaded with ph := .runEnc, opl := 6, rc := rc, sum := sum, y := y, z := z }

/-- P2 command 3 after its start step and `rc` rounds. -/
def runningDec (rc sum y z : Word) : State :=
  { loaded with ph := .runDec, opl := 7, rc := rc, sum := sum, y := y, z := z }

/-- The state of an outcome, if it is a next state. -/
def after : Result → Option State
  | .next s => some s
  | .fault _ => none
  | .refused _ => none

/-- A header written out field by field (30_encoding.md R71). -/
def headerBits (op : BitVec 4) (kf rp ri : BitVec 1) (reserved : BitVec 20) (len : BitVec 5) : Word :=
  op ++ kf ++ rp ++ ri ++ reserved ++ len

/-- The 16 bytes `00 01 ... 0F`. -/
def bytes0F : List Byte := [0x00, 0x01, 0x02, 0x03, 0x04, 0x05, 0x06, 0x07, 0x08, 0x09, 0x0A, 0x0B, 0x0C, 0x0D, 0x0E, 0x0F]

/-- The 8 bytes `01 23 ... EF`. -/
def bytesEF : List Byte := [0x01, 0x23, 0x45, 0x67, 0x89, 0xAB, 0xCD, 0xEF]

/-! ## WellFormed: for each check a term at its bound and one past it (R85) -/

theorem test_wf_newBytes_length :
    (Instr.newBytes (List.replicate 31 0) .absent).wf = true ∧ (Instr.newBytes (List.replicate 32 0) .absent).wf = false := by
  decide

theorem test_wf_newWords_length :
    (Instr.newWords (List.replicate 31 .nonInt) .absent).wf = true ∧
      (Instr.newWords (List.replicate 32 .nonInt) .absent).wf = false := by decide

theorem test_wf_encrypt_length :
    (Instr.encrypt (List.replicate 31 0)).wf = true ∧ (Instr.encrypt (List.replicate 32 0)).wf = false := by decide

theorem test_wf_decrypt_length :
    (Instr.decrypt (List.replicate 31 0)).wf = true ∧ (Instr.decrypt (List.replicate 32 0)).wf = false := by decide

theorem test_wf_encryptBlock_length :
    (Instr.encryptBlock (List.replicate 31 0)).wf = true ∧ (Instr.encryptBlock (List.replicate 32 0)).wf = false := by decide

theorem test_wf_decryptBlock_length :
    (Instr.decryptBlock (List.replicate 31 0)).wf = true ∧ (Instr.decryptBlock (List.replicate 32 0)).wf = false := by decide

theorem test_wf_rounds_above :
    (Instr.newBytes [] (.int 2147483647)).wf = true ∧ (Instr.newBytes [] (.int 2147483648)).wf = false := by decide

theorem test_wf_rounds_below :
    (Instr.newWords [] (.int (-2147483648))).wf = true ∧ (Instr.newWords [] (.int (-2147483649))).wf = false := by decide

/-! ## Decoding: every constructor, the header written out by R71, the following words by R72 to R75 -/

theorem test_decode_keysize : decode (headerBits 0b0001 0 0 0 0 0b00000) [] = .ok .keysize := by decide +kernel

theorem test_decode_blocksize : decode (headerBits 0b0010 0 0 0 0 0b00000) [] = .ok .blocksize := by decide +kernel

/-- `NEW.BYTES` of 3 bytes with an operand that is no integer: `RVAL` is there and ignored. -/
theorem test_decode_newBytes :
    decode (headerBits 0b0011 0 1 0 0 0b00011) [0xFFFFFFFF, 0x00000001, 0x0000007F, 0x000000FF] =
      .ok (.newBytes [0x01, 0x7F, 0xFF] .nonInt) := by decide +kernel

/-- `NEW.WORDS [0x00000001, ?, 0x80000000], rounds=-2`: bits 0 and 2 of `EMASK`; a bit at `LEN` is ignored. -/
theorem test_decode_newWords :
    decode (headerBits 0b0011 1 1 1 0 0b00011) [0xFFFFFFFE, 0b1101, 0x00000001, 0xDEADBEEF, 0x80000000] =
      .ok (.newWords [.int 0x00000001, .nonInt, .int 0x80000000] (.int (-2))) := by decide +kernel

theorem test_decode_encrypt :
    decode (headerBits 0b0100 0 0 0 0 0b00010) [0x000000FF, 0x00000001] = .ok (.encrypt [0xFF, 0x01]) := by decide +kernel

theorem test_decode_decrypt :
    decode (headerBits 0b0101 0 0 0 0 0b00010) [0x000000FF, 0x00000001] = .ok (.decrypt [0xFF, 0x01]) := by decide +kernel

theorem test_decode_encryptBlock :
    decode (headerBits 0b0110 0 0 0 0 0b00010) [0xFFFFFFFF, 0x00000001] = .ok (.encryptBlock [0xFFFFFFFF, 0x00000001]) := by
  decide +kernel

theorem test_decode_decryptBlock :
    decode (headerBits 0b0111 0 0 0 0 0b00010) [0xFFFFFFFF, 0x00000001] = .ok (.decryptBlock [0xFFFFFFFF, 0x00000001]) := by
  decide +kernel

/-- The illegal encodings of ER22 to ER27, each with its following words. -/
theorem test_decode_illegal :
    decode 0x00000000 [] = .error .unusedOpcode ∧ decode 0xFFFFFFFF (List.replicate 33 0) = .error .reservedBits ∧
      decode 0x80000000 [] = .error .unusedOpcode ∧ decode 0x10000001 [0] = .error .queryLength ∧
      decode 0x40000108 (List.replicate 8 0) = .error .reservedBits ∧
      decode 0x40000008 [0x00000100, 0, 0, 0, 0, 0, 0, 0] = .error .byteItem ∧
      decode 0x44000008 (List.replicate 9 0) = .error .newOnlyBits := by decide +kernel

/-- The encoder gives the words of R86. -/
theorem test_encode :
    encode .keysize = [0x10000000] ∧ encode .blocksize = [0x20000000] ∧
      encode (.newBytes [0xAB] (.int (-1))) = [0x36000001, 0xFFFFFFFF, 0x000000AB] ∧
      encode (.newWords [.int 0x00010203, .nonInt, .int 0x08090A0B, .int 0x0C0D0E0F] (.int 2)) =
        [0x3E000004, 0x00000002, 0x0000000D, 0x00010203, 0x00000000, 0x08090A0B, 0x0C0D0E0F] ∧
      encode (.decryptBlock [0x01234567, 0x89ABCDEF]) = [0x70000002, 0x01234567, 0x89ABCDEF] := by decide +kernel

/-- The number of following words of ER23's header, and of a query's. -/
theorem test_followCount : followCount 0xFFFFFFFF = 33 ∧ followCount 0x10000000 = 0 := by decide +kernel

/-! ## Arithmetic, rounds and transforms -/

/-- AR1 to AR5. -/
theorem test_add_sub :
    add32 0xFFFFFFFF 2 = 1 ∧ add32 0x89ABCDEF 0x9E3779B9 = 0x27E347A8 ∧ sub32 0 1 = 0xFFFFFFFF ∧ sub32 5 7 = 0xFFFFFFFE ∧
      sub32 0 0x9E3779B9 = 0x61C88647 := by decide +kernel

/-- AR6 to AR12. -/
theorem test_shifts :
    shl4 0x89ABCDEF = 0x9ABCDEF0 ∧ shl4 0x80000001 = 0x00000010 ∧ shr5 0x89ABCDEF = 0x044D5E6F ∧
      shr5 0x80000001 = 0x04000000 ∧ shr5 0x0000001F = 0 := by decide +kernel

/-- AR13, AR14. -/
theorem test_mul :
    mul32 Config.delta 3 = 0xDAA66D2B ∧ mul32 Config.delta 32 = 0xC6EF3720 ∧ mul32 Config.delta 100 = 0xCDAB8C44 ∧
      mul32 Config.delta 0x7FFFFFFF = 0xE1C88647 := by decide +kernel

/-- M4, M5. -/
theorem test_mix :
    mix 0xB6300894 0x9E3779B9 0x08090A0B 0x0C0D0E0F = 0x2ED09F55 ∧
      mix 0xFFFFFFFF 0x9E3779B9 0xFFFFFFFF 0xFFFFFFFF = 0x663779A9 := by decide +kernel

/-- V4, V12: `TEA_ENC` and `TEA_DEC` of the plaintext, 32 rounds. -/
theorem test_transforms :
    teaEnc ⟨0x01234567, 0x89ABCDEF⟩ keyP2 32 = ⟨0x14F0C75D, 0x2BEBD98D⟩ ∧
      teaDec ⟨0x01234567, 0x89ABCDEF⟩ keyP2 32 = ⟨0xF6A41DE7, 0x84AF0955⟩ ∧
      teaEnc ⟨0xDEADBEEF, 0xCAFEBABE⟩ ⟨0x01234567, 0x89ABCDEF, 0xFEDCBA98, 0x76543210⟩ 32 = ⟨0xD391E30A, 0x4518F2C5⟩ := by
  decide +kernel

/-- V1, V8: the known-answer value and the all-ones block. -/
theorem test_known_answers :
    teaEnc ⟨0, 0⟩ ⟨0, 0, 0, 0⟩ 32 = ⟨0x41EA3A0A, 0x94BAA940⟩ ∧
      teaEnc ⟨0xFFFFFFFF, 0xFFFFFFFF⟩ ⟨0xFFFFFFFF, 0xFFFFFFFF, 0xFFFFFFFF, 0xFFFFFFFF⟩ 32 = ⟨0x319BBEFB, 0x016ABDB2⟩ := by
  decide +kernel

/-- T2 and the sequencer view of P2: one step of each phase, and the completion of each. -/
theorem test_round_steps :
    (after (step (runningEnc 0 0 0x01234567 0x89ABCDEF))).map (fun s => (s.sum, s.y, s.z, s.rc)) =
        some (0x9E3779B9, 0xB6300894, 0xB87C6D44, 1) ∧
      (after (step (runningDec 0 0x3C6EF372 0x31146818 0x31D5CE92))).map (fun s => (s.sum, s.y, s.z, s.rc)) =
        some (0x9E3779B9, 0xB6300894, 0xB87C6D44, 1) := by decide +kernel

theorem test_completion_steps :
    (after (step (runningEnc 2 0x3C6EF372 0x31146818 0x31D5CE92))).map (fun s => (s.rspOut, s.ph)) =
        some ([0x06000002, 0x31146818, 0x31D5CE92], .idle) ∧
      (after (step (runningDec 2 0 0x01234567 0x89ABCDEF))).map (fun s => (s.rspOut, s.cipher)) =
        some ([0x07000002, 0x01234567, 0x89ABCDEF], cipherP2) := by decide +kernel

/-! ## The commands -/

/-- P1 command 1, ER28. -/
theorem test_keysize : (after (exec .keysize State.reset)).map (·.rspOut) = some [0x01000001, 0x00000010] := by decide +kernel

/-- P1 command 2. -/
theorem test_blocksize : (after (exec .blocksize loaded)).map (·.rspOut) = some [0x02000001, 0x00000008] := by decide +kernel

/-- The example of R106. -/
theorem test_newBytes :
    (after (exec (.newBytes bytes0F (.int 2)) State.reset)).map (fun s => (s.cipher, s.rspOut)) =
      some (cipherP2, [0x03000000]) := by decide +kernel

/-- ER13: two faults, the key first; nothing is written. -/
theorem test_newBytes_key_first :
    (after (exec (.newBytes (bytes0F.take 15) (.int 0)) loaded)).map (fun s => (s.cipher, s.rspOut)) =
      some (cipherP2, [0x83000100]) := by decide +kernel

/-- ER11: the largest round count. -/
theorem test_newWords :
    (after (exec (.newWords [.int 1, .int 2, .int 3, .int 4] (.int 2147483647)) State.reset)).map
        (fun s => (s.cipher, s.rspOut)) = some (⟨⟨1, 2, 3, 4⟩, 0x7FFFFFFF, true⟩, [0x03000000]) := by decide +kernel

/-- ER14: two faults, the element first. -/
theorem test_newWords_element_first :
    (after (exec (.newWords [.int 1, .nonInt, .int 3, .int 4] (.int 0)) loaded)).map (fun s => (s.cipher, s.rspOut)) =
      some (cipherP2, [0x83000300]) := by decide +kernel

/-- P2 command 5, BY3. -/
theorem test_encrypt :
    transactWords (.encrypt bytesEF) cipherP2 = [0x04000008, 0x31, 0x14, 0x68, 0x18, 0x31, 0xD5, 0xCE, 0x92] := by
  decide +kernel

/-- ER16, ER20. -/
theorem test_encrypt_refused :
    (after (exec (.encrypt (bytesEF.take 7)) loaded)).map (fun s => (s.ph, s.rspOut)) = some (.idle, [0x84000500]) ∧
      (after (exec (.encrypt bytesEF) State.reset)).map (·.rspOut) = some [0x84000800] := by decide +kernel

/-- P2 command 6. -/
theorem test_decrypt :
    transactWords (.decrypt [0x31, 0x14, 0x68, 0x18, 0x31, 0xD5, 0xCE, 0x92]) cipherP2 =
      [0x05000008, 0x01, 0x23, 0x45, 0x67, 0x89, 0xAB, 0xCD, 0xEF] := by decide +kernel

/-- ER17, and the start step of a decryption: `SUM = MUL(DELTA, 2)`. -/
theorem test_decrypt_start :
    (after (exec (.decrypt (bytesEF.take 7)) loaded)).map (·.rspOut) = some [0x85000500] ∧
      (after (exec (.decrypt bytesEF) loaded)).map (fun s => (s.y, s.z, s.sum, s.rc, s.opl, s.ph)) =
        some (0x01234567, 0x89ABCDEF, 0x3C6EF372, 0, 5, .runDec) := by decide +kernel

/-- P2 command 2: its start step. -/
theorem test_encryptBlock :
    (after (exec (.encryptBlock [0x01234567, 0x89ABCDEF]) loaded)).map (fun s => (s.y, s.z, s.sum, s.rc, s.opl, s.ph)) =
      some (0x01234567, 0x89ABCDEF, 0, 0, 6, .runEnc) := by decide +kernel

/-- ER18, ER21. -/
theorem test_encryptBlock_refused :
    (after (exec (.encryptBlock [5]) loaded)).map (·.rspOut) = some [0x86000600] ∧
      (after (exec (.encryptBlock [1, 2, 3]) State.reset)).map (·.rspOut) = some [0x86000800] := by decide +kernel

/-- P2 command 3. -/
theorem test_decryptBlock :
    transactWords (.decryptBlock [0x31146818, 0x31D5CE92]) cipherP2 = [0x07000002, 0x01234567, 0x89ABCDEF] := by
  decide +kernel

/-- ER19. -/
theorem test_decryptBlock_refused :
    (after (exec (.decryptBlock [1, 2, 3]) loaded)).map (·.rspOut) = some [0x87000600] := by decide +kernel

/-! ## The channels and the host's two functions -/

/-- ER22 as a step: the all-zero header is answered and changes nothing. -/
theorem test_illegal_step :
    (after (step { loaded with cmdIn := [0, 0x10000000] })).map (fun s => (s.rspOut, s.cipher, s.cmdIn)) =
      some ([0x80000900], cipherP2, [0x10000000]) := by decide +kernel

/-- A header with following words is accepted and the block is busy (R202). -/
theorem test_header_accepted :
    (after (step { loaded with cmdIn := [0x60000002, 1] })).map (fun s => (s.rx, s.cmdIn, s.busy, s.cmdReady)) =
      some ([0x60000002], [1], true, true) := by decide +kernel

/-- A header offered early is held while a response is pending and `rsp_ready` is 0 (R202). -/
theorem test_early_header_held :
    (after (step { loaded with cmdIn := [0x10000000], rspOut := [1], rspReady := false })).map
        (fun s => (s.rspOut, s.cmdIn, s.cmdReady)) = some ([1], [0x10000000], false) := by decide +kernel

/-- Under reset a pending response word is offered no more: none is transferred, and none is left (R200, R210). -/
theorem test_no_transfer_under_reset :
    ({ loaded with rspOut := [1], rst := true } : State).rspValid = false ∧
      (after (step { loaded with rspOut := [1], rst := true })).map (fun s => (s.rspOut, s.rspTaken, s.rspValid)) =
        some ([], [], false) := by decide +kernel

/-- The command whose header is `40000008`, all else zero. -/
theorem test_decodeTableWord :
    decodeTableWord 32 0x40000008 = some (.encrypt [0, 0, 0, 0, 0, 0, 0, 0]) ∧ decodeTableWord 32 0 = none := by decide +kernel

/-- The next step after `withFetchWord` runs the command: here KEYSIZE and a NEW.WORDS of no element. -/
theorem test_withFetchWord :
    (after (step (State.reset.withFetchWord 32 0x10000000))).map (·.rspOut) = some [0x01000001, 0x00000010] ∧
      (after (step (State.reset.withFetchWord 32 0x38000000))).map (·.rspOut) = some [0x83000200] := by decide +kernel

/-! ## Witnesses: for every statement with hypotheses, a state and operands that meet them (the hypotheses alone, and for each
clause a value at the edge of its range) -/

/-- P2 command 2, one round done. -/
def midEnc : State := runningEnc 1 0x9E3779B9 0xB6300894 0xB87C6D44

/-- P2 command 2, both rounds done. -/
def doneEnc : State := runningEnc 2 0x3C6EF372 0x31146818 0x31D5CE92

/-- The last word of a `NEW.WORDS [1, 2, 3, 4]` is next, no instance yet. -/
def lastWordOfNew : State := { State.reset with rx := [0x38000004, 0xF, 1, 2, 3], cmdIn := [4] }

/-- A running state that meets the invariant. -/
theorem midEnc_inv : midEnc.Inv where
  rounds := fun _ => ⟨by decide, by decide⟩
  sequencer := ⟨rfl, by decide, .inr rfl, by decide +kernel, rfl, rfl⟩
  channels := ⟨fun _ _ h => by simp [midEnc, runningEnc, loaded, State.reset] at h, by decide⟩
  buffers := ⟨by decide, by decide⟩

theorem witness_EveryStepKeepsTheInvariant : ∃ s t : State, s.Inv ∧ step s = .next t := ⟨midEnc, _, midEnc_inv, rfl⟩

theorem witness_NoStepStops : ∃ s : State, s.Inv := ⟨midEnc, midEnc_inv⟩

theorem witness_EveryInterleavingGoesOn :
    ∃ (es : List Event) (s : State), es = [.block, .host (.setRst true), .block] ∧ s.Inv := ⟨_, midEnc, rfl, midEnc_inv⟩

theorem witness_ResetAbandonsWhateverIsInFlight :
    ∃ s t : State, s.rst = true ∧ step s = .next t ∧ s.cfg = true ∧ t.cfg = false :=
  ⟨{ midEnc with rst := true }, _, rfl, rfl, rfl, rfl⟩

theorem witness_OnlyASuccessfulNewSetsCfg : ∃ s t : State, step s = .next t ∧ s.cfg = false ∧ t.cfg = true :=
  ⟨lastWordOfNew, _, rfl, rfl, rfl⟩

theorem witness_OnlyASuccessfulNewWritesTheInstance :
    (∃ i s t, exec i s = .next t ∧ isNew i = false) ∧
      (∃ i s t, exec i s = .next t ∧ isNew i = true ∧ Fails i s.cipher) ∧
      (∃ op s t, illegalCommand op s = .next t) ∧ ∃ s t, step s = .next t ∧ s.rst = false ∧ t.cipher ≠ s.cipher :=
  ⟨⟨.encryptBlock [1, 2], loaded, _, rfl, rfl⟩, ⟨.newWords [] .absent, loaded, _, rfl, rfl, .invalidKeyShape, rfl⟩,
    ⟨15, loaded, _, rfl⟩, lastWordOfNew, _, rfl, rfl, by decide +kernel⟩

theorem witness_DecryptUndoesEncrypt : ∃ (c : Cipher) (b : List Byte), c.cfg = true ∧ b.length = 8 :=
  ⟨cipherP2, bytesEF, rfl, rfl⟩

/-- The last word of the longest operand. -/
theorem witness_WordsAreBigEndian : ∃ (b : List Byte) (i : Nat), b.length = 31 ∧ i < b.length / 4 ∧ i = 6 :=
  ⟨List.replicate 31 0, 6, rfl, by decide, rfl⟩

theorem witness_PackAndUnpackAreInverse : ∃ b : List Byte, b.length = 8 := ⟨bytesEF, rfl⟩

theorem witness_SixteenBytesAreFourKeyWords : ∃ b c : List Byte, b.length = 15 ∧ c.length = 17 ∧ b.length ≠ 16 ∧ c.length ≠ 16 :=
  ⟨bytes0F.take 15, 0 :: bytes0F, rfl, rfl, by decide, by decide⟩

theorem witness_FourIntegersAreAKey :
    (∃ e f : List KeyElem, e.length = 3 ∧ f.length = 5 ∧ e.length ≠ 4 ∧ f.length ≠ 4) ∧
      ∃ e : List KeyElem, e.length = 4 ∧ .nonInt ∈ e :=
  ⟨⟨[.nonInt, .nonInt, .nonInt], [.int 0, .int 0, .int 0, .int 0, .int 0], rfl, rfl, by decide, by decide⟩,
    [.int 1, .int 2, .int 3, .nonInt], rfl, by decide⟩

theorem witness_KeyFormsAgree : ∃ b : List Byte, b.length = 16 := ⟨bytes0F, rfl⟩

theorem witness_RoundsMustBePositive :
    (∃ v : Int, v = 1 ∧ 1 ≤ v ∧ v ≤ 2147483647) ∧ (∃ v : Int, v = 2147483647 ∧ 1 ≤ v ∧ v ≤ 2147483647) ∧
      (∃ v : Int, v = 0 ∧ v ≤ 0) ∧ ∃ v : Int, v = -2147483648 ∧ v ≤ 0 :=
  ⟨⟨1, rfl, by decide, by decide⟩, ⟨2147483647, rfl, by decide, by decide⟩, ⟨0, rfl, by decide⟩, ⟨-2147483648, rfl, by decide⟩⟩

theorem witness_SizeQueriesAnswerTheirConstants :
    ∃ (s : State) (h g : Word), s.rspOut = [] ∧ opField h = 1 ∧ h ≠ 0x10000000 ∧ opField g = 2 ∧ g ≠ 0x20000000 :=
  ⟨loaded, 0x10000001, 0x2FFFFFFF, rfl, by decide, by decide, by decide, by decide⟩

theorem witness_NewBytesLoadsTheInstanceOrFails :
    (∃ s : State, s.rspOut = []) ∧ (∃ r n, roundsOf r = .ok n ∧ r = .int 2147483647) ∧ (∃ r n, roundsOf r = .ok n ∧ r = .int 1) ∧
      (∃ key key' : List Byte, key.length = 15 ∧ key.length ≠ 16 ∧ key'.length = 17 ∧ key'.length ≠ 16) ∧
      (∃ (key : List Byte) (r : RoundsArg), key.length = 16 ∧ badRounds r ∧ r = .int 0) ∧
      (∃ (key : List Byte) (r : RoundsArg), key.length = 16 ∧ badRounds r ∧ r = .nonInt) ∧
      ∃ h : Word, opField h = 3 ∧ kfBit h = false :=
  ⟨⟨loaded, rfl⟩, ⟨_, 0x7FFFFFFF, by decide +kernel, rfl⟩, ⟨_, 1, by decide +kernel, rfl⟩,
    ⟨bytes0F.take 15, 0 :: bytes0F, rfl, by decide, rfl, by decide⟩, ⟨bytes0F, _, rfl, .inr ⟨0, rfl, by decide⟩, rfl⟩,
    ⟨bytes0F, _, rfl, .inl rfl, rfl⟩, 0x37FFFFFF, by decide, by decide⟩

theorem witness_NewWordsLoadsTheInstanceOrFails :
    (∃ s : State, s.rspOut = []) ∧ (∃ r n, roundsOf r = .ok n ∧ r = .absent) ∧
      (∃ key key' : List KeyElem, key.length = 3 ∧ key.length ≠ 4 ∧ key'.length = 5 ∧ key'.length ≠ 4) ∧
      (∃ key : List KeyElem, key.length = 4 ∧ .nonInt ∈ key) ∧
      (∃ (key : List KeyElem) (r : RoundsArg), key.length = 4 ∧ .nonInt ∉ key ∧ badRounds r) ∧
      (∃ (h : Word) (ws : List Word), opField h = 3 ∧ kfBit h = true ∧ ws.length = followCount h ∧ reservedField h = 0) ∧
      ∃ (h : Word) (ws : List Word), opField h = 3 ∧ kfBit h = true ∧ ws.length = followCount h ∧ reservedField h ≠ 0 :=
  ⟨⟨loaded, rfl⟩, ⟨_, 32, by decide +kernel, rfl⟩, ⟨[.int 1, .int 2, .int 3], List.replicate 5 .nonInt, rfl, by decide, rfl, by decide⟩,
    ⟨[.nonInt, .int 2, .int 3, .int 4], rfl, by decide⟩, ⟨[.int 0, .int 0, .int 0, .int 0], .int (-1), rfl, by decide,
    .inr ⟨-1, rfl, by decide⟩⟩, ⟨0x3E00001F, List.replicate 33 0, by decide, by decide, by decide, by decide⟩,
    0x38000020, [0], by decide, by decide, by decide, by decide⟩

/-- An instance, no instance, with an instance a byte too few or too many, and a header with `OP = 4`. -/
theorem witness_EncryptAnswersTheForwardTransform :
    (∃ s : State, s.rspOut = [] ∧ s.cfg = true ∧ s.rst = false) ∧ (∃ s : State, s.rspOut = [] ∧ s.cfg = false) ∧
      (∃ (b c : List Byte) (s : State), s.rspOut = [] ∧ s.cfg = true ∧ b.length = 7 ∧ b.length ≠ 8 ∧ c.length = 9 ∧
        c.length ≠ 8) ∧
      ∃ (h : Word) (s : State), s.rspOut = [] ∧ opField h = 4 :=
  ⟨⟨loaded, rfl, rfl, rfl⟩, ⟨State.reset, rfl, rfl⟩,
    ⟨bytesEF.take 7, 0 :: bytesEF, loaded, rfl, rfl, rfl, by decide, rfl, by decide⟩, 0x4FFFFFFF, loaded, rfl, by decide⟩

/-- An instance, no instance, with an instance a byte too few or too many, and a header with `OP = 5`. -/
theorem witness_DecryptAnswersTheInverseTransform :
    (∃ s : State, s.rspOut = [] ∧ s.cfg = true ∧ s.rst = false) ∧ (∃ s : State, s.rspOut = [] ∧ s.cfg = false) ∧
      (∃ (b c : List Byte) (s : State), s.rspOut = [] ∧ s.cfg = true ∧ b.length = 7 ∧ b.length ≠ 8 ∧ c.length = 9 ∧
        c.length ≠ 8) ∧
      ∃ (h : Word) (s : State), s.rspOut = [] ∧ opField h = 5 :=
  ⟨⟨loaded, rfl, rfl, rfl⟩, ⟨State.reset, rfl, rfl⟩,
    ⟨bytesEF.take 7, 0 :: bytesEF, loaded, rfl, rfl, rfl, by decide, rfl, by decide⟩, 0x5FFFFFFF, loaded, rfl, by decide⟩

/-- An instance, no instance, with an instance a word too few or too many, and a header with `OP = 6`. -/
theorem witness_EncryptBlockAnswersTheForwardTransform :
    (∃ s : State, s.rspOut = [] ∧ s.cfg = true ∧ s.rst = false) ∧ (∃ s : State, s.rspOut = [] ∧ s.cfg = false) ∧
      (∃ (b c : List Word) (s : State), s.rspOut = [] ∧ s.cfg = true ∧ b.length = 1 ∧ b.length ≠ 2 ∧ c.length = 3 ∧
        c.length ≠ 2) ∧
      ∃ (h : Word) (s : State), s.rspOut = [] ∧ opField h = 6 :=
  ⟨⟨loaded, rfl, rfl, rfl⟩, ⟨State.reset, rfl, rfl⟩,
    ⟨[1], [1, 2, 3], loaded, rfl, rfl, rfl, by decide, rfl, by decide⟩, 0x6FFFFFFF, loaded, rfl, by decide⟩

/-- An instance, no instance, with an instance a word too few or too many, and a header with `OP = 7`. -/
theorem witness_DecryptBlockAnswersTheInverseTransform :
    (∃ s : State, s.rspOut = [] ∧ s.cfg = true ∧ s.rst = false) ∧ (∃ s : State, s.rspOut = [] ∧ s.cfg = false) ∧
      (∃ (b c : List Word) (s : State), s.rspOut = [] ∧ s.cfg = true ∧ b.length = 1 ∧ b.length ≠ 2 ∧ c.length = 3 ∧
        c.length ≠ 2) ∧
      ∃ (h : Word) (s : State), s.rspOut = [] ∧ opField h = 7 :=
  ⟨⟨loaded, rfl, rfl, rfl⟩, ⟨State.reset, rfl, rfl⟩,
    ⟨[1], [1, 2, 3], loaded, rfl, rfl, rfl, by decide, rfl, by decide⟩, 0x7FFFFFFF, loaded, rfl, by decide⟩

theorem witness_ByteAndWordFormsAgree : ∃ (c : Cipher) (b : List Byte), c.cfg = true ∧ b.length = 8 :=
  ⟨cipherP2, bytesEF, rfl, rfl⟩

theorem witness_QueriesAndNewLeaveTheSequencerAlone :
    (∃ i s t, isTransform i = false ∧ exec i s = .next t ∧ isNew i = false) ∧
      ∃ i s t, isTransform i = false ∧ exec i s = .next t ∧ isNew i = true :=
  ⟨⟨.keysize, loaded, _, rfl, rfl, rfl⟩, .newWords [.int 1, .int 2, .int 3, .int 4] .absent, loaded, _, rfl, rfl, rfl⟩

/-- A whole transform of one round: its start step, its round step and its completion step. -/
theorem witness_TransformsLeaveTheInstanceAlone :
    ∃ (i : Instr) (n : Nat) (s t u : State), isTransform i = true ∧ s.rst = false ∧ s.ph = .idle ∧ exec i s = .next t ∧
      t.ph ≠ .idle ∧ n ≤ s.rounds.toNat + 1 ∧ n = 2 ∧ steps n t = .next u :=
  ⟨.encryptBlock [1, 2], 2, { loaded with rounds := 1 }, _, _, rfl, rfl, rfl, rfl, by decide, by decide, rfl, rfl⟩

theorem witness_TransformStartsOnlyAfterItsChecks :
    (∃ s : State, s.cfg = true) ∧ ∃ i s t, Fails i s.cipher ∧ exec i s = .next t :=
  ⟨⟨loaded, rfl⟩, .encryptBlock [1], loaded, _, ⟨.malformedBlock, rfl⟩, rfl⟩

theorem witness_RunningStepIsOneRound :
    (∃ s : State, s.rst = false ∧ s.ph = .runEnc ∧ s.rc.toNat < s.rounds.toNat ∧ s.rc.toNat + 1 = s.rounds.toNat) ∧
      ∃ s : State, s.rst = false ∧ s.ph = .runDec ∧ s.rc.toNat < s.rounds.toNat ∧ s.rc = 0 :=
  ⟨⟨midEnc, rfl, rfl, by decide, by decide⟩, runningDec 0 0x3C6EF372 0x31146818 0x31D5CE92, rfl, rfl, by decide, rfl⟩

theorem witness_CompletionAnswersFromTheWorkingBlock :
    (∃ s : State, s.rst = false ∧ s.ph ≠ .idle ∧ s.rspOut = [] ∧ s.rc = s.rounds ∧ s.opl = 4) ∧
      (∃ s : State, s.rst = false ∧ s.ph ≠ .idle ∧ s.rspOut = [] ∧ s.rc = s.rounds ∧ s.opl = 5) ∧
      (∃ s : State, s.rst = false ∧ s.ph ≠ .idle ∧ s.rspOut = [] ∧ s.rc = s.rounds ∧ s.opl = 6) ∧
      ∃ s : State, s.rst = false ∧ s.ph ≠ .idle ∧ s.rspOut = [] ∧ s.rc = s.rounds ∧ s.opl = 7 :=
  ⟨⟨{ doneEnc with opl := 4 }, rfl, by decide, rfl, rfl, rfl⟩,
    ⟨{ doneEnc with opl := 5, ph := .runDec }, rfl, by decide, rfl, rfl, rfl⟩, ⟨doneEnc, rfl, by decide, rfl, rfl, rfl⟩,
    { doneEnc with opl := 7, ph := .runDec }, rfl, by decide, rfl, rfl, rfl⟩

/-- A transform that passes its checks does not fail. -/
theorem encryptBlock_passes : ¬ Fails (.encryptBlock [0x01234567, 0x89ABCDEF]) loaded.cipher := by
  rintro ⟨e, he⟩
  have h : (transact (.encryptBlock [0x01234567, 0x89ABCDEF]) loaded.cipher).2 = .ok [.word 0x31146818, .word 0x31D5CE92] := by
    decide +kernel
  rw [h] at he
  cases he

theorem witness_SequencerViewAgreesWithTheTransaction :
    ∃ (i : Instr) (s : State), isTransform i = true ∧ ¬ Fails i s.cipher ∧ s.rst = false :=
  ⟨_, _, rfl, encryptBlock_passes, rfl⟩

theorem witness_SequencerStopsOutsideItsStates :
    (∃ s : State, s.rst = false ∧ s.ph ≠ .idle ∧ s.rounds.toNat < s.rc.toNat) ∧
      (∃ s : State, s.rst = false ∧ s.ph ≠ .idle ∧ s.rc = s.rounds ∧ s.opl = 3 ∧ s.opl ≠ 4 ∧ s.opl ≠ 5 ∧ s.opl ≠ 6 ∧ s.opl ≠ 7) ∧
      ∃ s : State, s.rst = false ∧ s.ph ≠ .idle ∧ s.rc = s.rounds ∧ s.opl = 8 ∧ s.opl ≠ 4 ∧ s.opl ≠ 5 ∧ s.opl ≠ 6 ∧ s.opl ≠ 7 :=
  ⟨⟨{ doneEnc with rc := 3 }, rfl, by decide, by decide⟩,
    ⟨{ doneEnc with opl := 3 }, rfl, by decide, rfl, rfl, by decide, by decide, by decide, by decide⟩,
    { doneEnc with opl := 8 }, rfl, by decide, rfl, rfl, by decide, by decide, by decide, by decide⟩

theorem witness_FailingCommandsChangeNothing : ∃ (i : Instr) (s : State) (e : ErrName), (transact i s.cipher).2 = .err e :=
  ⟨.encrypt [], loaded, .invalidBlockLength, rfl⟩

theorem witness_ChecksAreMadeInOrder :
    (∃ (h : Word) (ws : List Word), ∃ e, decode h ws = .error e) ∧
      (∃ (i : Instr) (c : Cipher), isTransform i = true ∧ c.cfg = false) ∧
      (∃ (b : List Byte) (w : List Word) (c : Cipher), c.cfg = true ∧ b.length ≠ 8 ∧ w.length ≠ 2) ∧
      (∃ (key : List Byte) (r : RoundsArg), key.length ≠ 16 ∧ badRounds r) ∧
      (∃ (key : List Byte) (r : RoundsArg), key.length = 16 ∧ badRounds r) ∧
      (∃ key : List KeyElem, key.length ≠ 4 ∧ .nonInt ∈ key) ∧
      (∃ (key : List KeyElem) (r : RoundsArg), key.length = 4 ∧ .nonInt ∈ key ∧ badRounds r) ∧
      ∃ (key : List KeyElem) (r : RoundsArg), key.length = 4 ∧ .nonInt ∉ key ∧ badRounds r :=
  ⟨⟨0, [], .unusedOpcode, by decide +kernel⟩, ⟨.encryptBlock [1, 2, 3], ⟨keyP2, 2, false⟩, rfl, rfl⟩,
    ⟨[], [], cipherP2, rfl, by decide, by decide⟩, ⟨bytes0F.take 15, .int 0, by decide, .inr ⟨0, rfl, by decide⟩⟩,
    ⟨bytes0F, .int 0, rfl, .inr ⟨0, rfl, by decide⟩⟩, ⟨List.replicate 5 .nonInt, by decide, by decide⟩,
    ⟨[.int 1, .nonInt, .int 3, .int 4], .nonInt, rfl, by decide, .inl rfl⟩,
    [.int 1, .int 2, .int 3, .int 4], .nonInt, rfl, by decide, .inl rfl⟩

theorem witness_DecodeUndoesEncode :
    (∃ i : Instr, i.wf = true ∧ i = .newWords (List.replicate 31 (.int 0xFFFFFFFF)) (.int (-2147483648))) ∧
      ∃ i : Instr, i.wf = true ∧ i = .newBytes [] (.int 2147483647) := ⟨⟨_, by decide, rfl⟩, _, by decide, rfl⟩

theorem witness_DecodedCommandsAreWellFormed : ∃ (h : Word) (ws : List Word) (i : Instr), decode h ws = .ok i :=
  ⟨0x38000001, [1, 0xFFFFFFFF], .newWords [.int 0xFFFFFFFF] .absent, by decide +kernel⟩

theorem witness_HeadersSelectTheirTableRow :
    ∃ (h : Word) (ws : List Word), ws.length = followCount h ∧ h = 0xFFFFFFFF ∧ ws = List.replicate 33 0 :=
  ⟨_, _, by decide +kernel, rfl, rfl⟩

/-- One illegal encoding of each kind. -/
theorem witness_IllegalEncodingsAreRefusedAndHarmless :
    ∃ a b c d e f : Reject, decode 0 [] = .error a ∧ decode 0x80000000 [] = .error b ∧ decode 0x40000020 [] = .error c ∧
      decode 0x42000000 [] = .error d ∧ decode 0x20000001 [0] = .error e ∧ decode 0x30000001 [256] = .error f :=
  ⟨.unusedOpcode, .unusedOpcode, .reservedBits, .newOnlyBits, .queryLength, .byteItem, by decide +kernel, by decide +kernel,
    by decide +kernel, by decide +kernel, by decide +kernel, by decide +kernel⟩

theorem witness_IgnoredFieldsHaveNoEffect :
    (∃ h : Word, opField h = 3 ∧ rpBit h = false) ∧ (∃ h : Word, rpBit h = true ∧ riBit h = false) ∧
      (∃ (h m m' : Word) (pre : List Word), m ≠ m' ∧ kfBit h = true ∧ pre.length = (rpBit h).toNat ∧
        ∀ j < lenField h, m.getLsbD j = m'.getLsbD j) ∧
      ∃ (h m : Word) (ws ws' pre : List Word), ws ≠ ws' ∧ kfBit h = true ∧ pre.length = (rpBit h).toNat ∧
        ws.length = ws'.length ∧ ∀ j, m.getLsbD j = true → ws[j]? = ws'[j]? :=
  ⟨⟨0x30000001, by decide, by decide⟩, ⟨0x34000000, by decide, by decide⟩,
    ⟨0x38000001, 1, 3, [], by decide, by decide, by decide, by decide⟩,
    0x3C000001, 0, [1], [2], [0], by decide, by decide, by decide, by decide, fun j h => by simp at h⟩

theorem witness_RvalIsTwosComplement :
    (∃ (h v : Word) (ws : List Word) (i : Instr), rpBit h = true ∧ v = 0x80000000 ∧ decode h (v :: ws) = .ok i) ∧
      ∃ (h : Word) (ws : List Word) (i : Instr), opField h = 3 ∧ rpBit h = false ∧ decode h ws = .ok i :=
  ⟨⟨0x36000000, _, [], .newBytes [] (.int (-2147483648)), by decide, rfl, by decide +kernel⟩,
    0x38000000, [0], .newWords [] .absent, by decide, by decide, by decide +kernel⟩

theorem witness_EmaskBitsTagTheElements :
    ∃ (h m : Word) (ws pre : List Word) (key : List KeyElem) (r : RoundsArg) (w : Word),
      pre.length = (rpBit h).toNat ∧ decode h (pre ++ m :: ws) = .ok (.newWords key r) ∧ ws[30]? = some w :=
  ⟨0x3800001F, 0x7FFFFFFF, List.replicate 31 7, [], List.replicate 31 (.int 7), .absent, 7, by decide, by decide +kernel, rfl⟩

theorem witness_StepRunsTheDecodedCommand :
    ∃ (s : State) (w : Word) (rest : List Word) (i : Instr), s.rst = false ∧ s.ph = .idle ∧ s.rspOut = [] ∧
      s.cmdIn = w :: rest ∧ decode (frameWith s.rx w).1 (frameWith s.rx w).2 = .ok i :=
  ⟨lastWordOfNew, 4, [], .newWords [.int 1, .int 2, .int 3, .int 4] .absent, rfl, rfl, rfl, rfl, by decide +kernel⟩

theorem witness_OfferedCommandsAreDeliveredWhole :
    ∃ (i : Instr) (s : State) (rest : List Word), i.wf = true ∧ s.Ready ∧ s.cmdIn = encode i ++ rest :=
  ⟨.encryptBlock [1, 2], { loaded with cmdIn := encode (.encryptBlock [1, 2]) ++ [0x10000000] }, [0x10000000], by decide,
    ⟨rfl, rfl, rfl, rfl⟩, rfl⟩

theorem witness_IllegalCommandsKeepTheChannelInStep :
    ∃ (h : Word) (ws rest : List Word) (s : State), ws.length = followCount h ∧ (∃ e, decode h ws = .error e) ∧ s.Ready ∧
      s.cmdIn = h :: ws ++ rest :=
  ⟨0x44000001, [0, 0], [0x10000000], { loaded with cmdIn := [0x44000001, 0, 0, 0x10000000] }, by decide +kernel,
    ⟨.newOnlyBits, by decide +kernel⟩, ⟨rfl, rfl, rfl, rfl⟩, rfl⟩

/-- A block that runs, one that answers, one that takes a word, one that is ready and is offered one, and one that is not busy
is offered one, becomes busy, ceases to be busy, and is reset. -/
theorem witness_WordsAreHeldWhileBusy :
    (∃ s t : State, s.rst = false ∧ s.ph ≠ .idle ∧ step s = .next t) ∧
      (∃ s t : State, s.rst = false ∧ s.rspOut ≠ [] ∧ step s = .next t) ∧
      (∃ s t : State, step s = .next t ∧ t.cmdIn ≠ s.cmdIn) ∧
      (∃ (s : State) (w : Word) (rest : List Word), s.cmdReady = true ∧ s.cmdIn = w :: rest) ∧
      (∃ (s t : State) (w : Word) (rest : List Word), s.rst = false ∧ s.busy = false ∧ s.cmdIn = w :: rest ∧
        step s = .next t ∧ t.busy = true) ∧
      (∃ s t : State, s.rst = false ∧ s.busy = true ∧ step s = .next t ∧ t.busy = false) ∧
      ∃ s t : State, s.rst = true ∧ step s = .next t :=
  ⟨⟨midEnc, _, rfl, by decide, rfl⟩, ⟨{ loaded with rspOut := [1] }, _, rfl, by decide, rfl⟩,
    ⟨lastWordOfNew, _, rfl, by decide⟩, ⟨lastWordOfNew, 4, [], by decide, rfl⟩,
    ⟨{ loaded with cmdIn := [0x60000002, 1] }, _, _, _, rfl, by decide, rfl, rfl, by decide⟩,
    ⟨{ loaded with rspOut := [1] }, _, rfl, by decide, rfl, by decide⟩, { midEnc with rst := true }, _, rfl, rfl⟩

/-- A block with a response word pending meets the invariant. -/
theorem answering_inv (rst rdy : Bool) : State.Inv { loaded with rspOut := [1], rst := rst, rspReady := rdy } where
  rounds := fun _ => ⟨by simp [loaded, State.reset], by simp [loaded, State.reset]⟩
  sequencer := trivial
  channels := ⟨fun _ _ h => by simp [loaded, State.reset] at h, by simp⟩
  buffers := ⟨by simp [loaded, State.reset], by simp [loaded, State.reset]⟩

/-- Two words pending; and, the invariant holding, a word offered and taken, one offered and not taken, and one no longer offered
under reset. -/
theorem witness_ResponseWordsAreNeverLost :
    (∃ s t : State, s.rst = false ∧ step s = .next t ∧ s.rspOut = [1, 2]) ∧
      (∃ s t : State, s.Inv ∧ step s = .next t ∧ s.rspValid = true ∧ s.rspReady = true) ∧
      (∃ s t : State, s.Inv ∧ step s = .next t ∧ s.rspValid = true ∧ s.rspReady = false) ∧
      ∃ s t : State, s.Inv ∧ step s = .next t ∧ s.rspValid = false ∧ s.rspReady = true ∧ s.rspOut = [1] :=
  ⟨⟨{ loaded with rspOut := [1, 2] }, _, rfl, rfl, rfl⟩, ⟨_, _, answering_inv false true, rfl, by decide, rfl⟩,
    ⟨_, _, answering_inv false false, rfl, by decide, rfl⟩, _, _, answering_inv true true, rfl, by decide, rfl, rfl⟩

theorem witness_TheBlockWaitsForTheHost :
    (∃ s : State, s.rst = false ∧ s.ph = .idle ∧ s.rspOut = [] ∧ s.cmdIn = []) ∧
      ∃ s : State, s.rst = false ∧ s.ph = .idle ∧ s.rspOut ≠ [] ∧ s.rspReady = false :=
  ⟨⟨{ loaded with rx := [0x60000002, 1] }, rfl, rfl, rfl, rfl⟩,
    { loaded with rspOut := [1], rspReady := false }, rfl, rfl, by decide, rfl⟩

/-- Three commands, the middle one illegal, and a part of a fourth behind them. -/
theorem witness_CommandStreamsRunInOrder :
    ∃ (fs : List (Word × List Word)) (rest : List Word) (s : State), wholeFrames fs ∧ s.Ready ∧ s.rspReady = true ∧
      s.cmdIn = channelWords fs ++ rest :=
  ⟨[(0x10000000, []), (0x80000001, [7]), (0x60000002, [1, 2])], [0x20000000],
    { loaded with cmdIn := [0x10000000, 0x80000001, 7, 0x60000002, 1, 2, 0x20000000] },
    by unfold wholeFrames; decide +kernel, ⟨rfl, rfl, rfl, rfl⟩,
    rfl, rfl⟩

/-- Two blocks that agree on the instance and differ in everything else that may differ. -/
theorem witness_ResponsesDependOnTheInstanceAlone :
    ∃ (h : Word) (ws rest1 rest2 : List Word) (s1 s2 : State), ws.length = followCount h ∧ s1.Ready ∧ s2.Ready ∧
      s1.rspReady = true ∧ s2.rspReady = true ∧ s1.cipher = s2.cipher ∧ s1.cmdIn = h :: ws ++ rest1 ∧
      s2.cmdIn = h :: ws ++ rest2 ∧ s1.y ≠ s2.y :=
  ⟨0x60000002, [1, 2], [], [5], { loaded with cmdIn := [0x60000002, 1, 2] },
    { loaded with cmdIn := [0x60000002, 1, 2, 5], y := 9, sum := 3, opl := 1 }, by decide +kernel, ⟨rfl, rfl, rfl, rfl⟩,
    ⟨rfl, rfl, rfl, rfl⟩, rfl, rfl, rfl, rfl, rfl, by decide⟩

theorem witness_InterleavedTransformsAnswerAsAlone :
    ∃ fs : List (Word × List Word), fs.length = 2 ∧ ∀ f ∈ fs, ∃ i, decode f.1 f.2 = .ok i ∧ isTransform i = true := by
  refine ⟨[(0x60000002, [1, 2]), (0x40000001, [5])], rfl, fun f hf => ?_⟩
  rcases List.mem_cons.mp hf with rfl | hf
  · exact ⟨.encryptBlock [1, 2], by decide +kernel, rfl⟩
  · obtain rfl := List.mem_singleton.mp hf
    exact ⟨.encrypt [5], by decide +kernel, rfl⟩

end Sys2Proof.Tests
end

section
/-! PROOF. Which commands and which steps write `K`, `ROUNDS`, `CFG` (10_state.md R29). -/

namespace Sys2Proof.Machine

/-! ## What the steps without a command leave of the Cipher -/

@[simp] theorem takeResponse_cipher (w : Word) (rest : List Word) (s : State) :
    (takeResponse w rest s).cipher = s.cipher := by
  cases rest <;> rfl

@[simp] theorem completed_cipher (s : State) (items : List ResItem) : (completed s items).cipher = s.cipher := rfl

/-- The running phases keep the Cipher when their round does. -/
theorem runningStep_next_cipher {round : State → State} {s t : State} (hround : (round s).cipher = s.cipher)
    (h : runningStep round s = .next t) : t.cipher = s.cipher := by
  rcases runningStep_cases round s with ⟨-, hs⟩ | ⟨items, -, -, hs⟩ | ⟨-, -, hs⟩ | ⟨-, hs⟩ <;> rw [hs] at h <;> cases h
  · exact hround
  · exact completed_cipher s items

/-! ## What a command does to the Cipher -/

/-- The sequencer view and the transaction view agree on the Cipher. A transform keeps it, so this holds already when it
starts. -/
theorem exec_next_cipher {i : Instr} {s t : State} (h : exec i s = .next t) : t.cipher = (transact i s.cipher).1 := by
  rcases exec_cases i s with ⟨a, hs, ht, -⟩ | ⟨k, n, hs, -, ht⟩ | ⟨b, hs, -, -, ht⟩
  all_goals
    rw [hs] at h
    cases h
    simp [ht]

/-- `NEW.*` leaves the Cipher, or it succeeds. -/
theorem transactNew_cases (key : Except ErrName Key) (r : RoundsArg) (c : Cipher) :
    (transactNew key r c).1 = c ∨ (transactNew key r c).2 = .ok [] := by
  rcases h : checkNew key r with e | ⟨k, n⟩
  · exact .inl (by simp [transactNew, h])
  · exact .inr (by simp [transactNew, h])

/-- A command leaves the Cipher, or it is a `NEW.*` that succeeds. -/
theorem transact_cipher_cases (i : Instr) (c : Cipher) :
    (transact i c).1 = c ∨ (isNew i = true ∧ (transact i c).2 = .ok []) := by
  cases i with
  | newBytes key r => exact (transactNew_cases (ksBytes key) r c).imp_right fun h => ⟨rfl, h⟩
  | newWords key r => exact (transactNew_cases (ksWords key) r c).imp_right fun h => ⟨rfl, h⟩
  | keysize | blocksize | encrypt | decrypt | encryptBlock | decryptBlock => exact .inl rfl

/-- A command that is no `NEW.*`, and a command that fails, leave the Cipher. -/
theorem transact_cipher_eq_self {i : Instr} {c : Cipher} (h : isNew i = false ∨ Fails i c) : (transact i c).1 = c := by
  rcases transact_cipher_cases i c with hc | ⟨hnew, hok⟩
  · exact hc
  · rcases h with hnot | ⟨e, herr⟩
    · simp [hnew] at hnot
    · simp [hok] at herr

/-- Words that spell no command leave the Cipher. -/
theorem illegalCommand_next_cipher {op : Opcode} {s t : State} (h : illegalCommand op s = .next t) :
    t.cipher = s.cipher := by
  cases h
  exact State.answer_cipher ..

/-! ## What a step does to the Cipher -/

/-- A step in phase IDLE leaves the Cipher, or it runs the command whose last word it takes. -/
theorem idleStep_next_cipher {s t : State} (h : idleStep s = .next t) :
    t.cipher = s.cipher ∨
      s.rspOut = [] ∧ ∃ w rest i, s.cmdIn = w :: rest ∧ decode (frameWith s.rx w).1 (frameWith s.rx w).2 = .ok i ∧
        t.cipher = (transact i s.cipher).1 := by
  rcases idleStep_cases s with ⟨w, rest, -, -, hs⟩ | ⟨-, hs⟩ | ⟨w, rest, header, ws, ho, hc, hf, hword⟩
  · rw [hs] at h
    cases h
    exact .inl (takeResponse_cipher ..)
  · rw [hs] at h
    cases h
    exact .inl rfl
  · rcases hword with ⟨-, hs⟩ | ⟨-, i, hdec, hs⟩ | ⟨-, e, -, hs⟩ <;> rw [hs] at h
    · cases h
      exact .inl rfl
    · have hrun := exec_next_cipher h
      exact .inr ⟨ho, w, rest, i, hc, by rw [hf]; exact hdec, hrun⟩
    · cases h
      exact .inl (State.answer_cipher ..)

/-- A step under no reset leaves the Cipher, or the block is ready and the step runs the command whose last word it takes. -/
theorem step_next_cipher {s t : State} (hrst : s.rst = false) (h : step s = .next t) :
    t.cipher = s.cipher ∨
      s.cmdReady = true ∧ ∃ w rest i, s.cmdIn = w :: rest ∧ decode (frameWith s.rx w).1 (frameWith s.rx w).2 = .ok i ∧
        t.cipher = (transact i s.cipher).1 := by
  cases hph : s.ph with
  | idle =>
    rw [step_idle hrst hph] at h
    exact (idleStep_next_cipher h).imp_right fun ⟨ho, hrun⟩ => ⟨(State.cmdReady_eq_true_iff s).mpr ⟨hrst, hph, ho⟩, hrun⟩
  | runEnc =>
    rw [step_runEnc hrst hph] at h
    exact .inl (runningStep_next_cipher (State.forwardRound_cipher s) h)
  | runDec =>
    rw [step_runDec hrst hph] at h
    exact .inl (runningStep_next_cipher (State.inverseRound_cipher s) h)

/-- Settles O8: a command's step gives the Cipher its transaction gives, and only a successful `NEW.*` gives another. -/
theorem onlyASuccessfulNewWritesTheInstance : Obligations.OnlyASuccessfulNewWritesTheInstance := by
  refine ⟨fun i s t h hkeep => (exec_next_cipher h).trans (transact_cipher_eq_self hkeep),
    fun op s t h => illegalCommand_next_cipher h, fun s t h hrst hne => ?_⟩
  rcases step_next_cipher hrst h with hsame | ⟨hready, w, rest, i, hc, hdec, ht⟩
  · exact absurd hsame hne
  · rcases transact_cipher_cases i s.cipher with hsame | ⟨hnew, hok⟩
    · exact absurd (ht.trans hsame) hne
    · exact ⟨hready, w, rest, i, hc, hdec, hnew, hok⟩

end Sys2Proof.Machine
end

section
/-! PROOF. Byte order and the views of buffers (20_memory.md R51 to R53). -/

namespace Sys2Proof.Machine

/-! ## BE32 and BYTES32 (R51) -/

theorem be32_toNat (b0 b1 b2 b3 : Byte) :
    (be32 b0 b1 b2 b3).toNat = b0.toNat * 2 ^ 24 + b1.toNat * 2 ^ 16 + b2.toNat * 2 ^ 8 + b3.toNat := by
  unfold be32
  rw [append_toNat, append_toNat, append_toNat]
  omega

/-- The bytes of a word as numbers, the most significant first. -/
theorem bytes32_eq (w : Word) :
    bytes32 w = [BitVec.ofNat 8 (w.toNat / 2 ^ 24), BitVec.ofNat 8 (w.toNat / 2 ^ 16),
      BitVec.ofNat 8 (w.toNat / 2 ^ 8), BitVec.ofNat 8 w.toNat] := by
  simp [bytes32, BitVec.extractLsb', Nat.shiftRight_eq_div_pow]

theorem bytes32_be32 (b0 b1 b2 b3 : Byte) : bytes32 (be32 b0 b1 b2 b3) = [b0, b1, b2, b3] := by
  have h0 := b0.isLt
  have h1 := b1.isLt
  have h2 := b2.isLt
  have h3 := b3.isLt
  rw [bytes32_eq, be32_toNat]
  simp only [List.cons.injEq, and_true, ← BitVec.toNat_inj, BitVec.toNat_ofNat]
  omega

/-- `BE32` of the four bytes of a word is the word. -/
theorem be32_bytes (w : Word) :
    be32 (.ofNat 8 (w.toNat / 2 ^ 24)) (.ofNat 8 (w.toNat / 2 ^ 16)) (.ofNat 8 (w.toNat / 2 ^ 8))
      (.ofNat 8 w.toNat) = w := by
  have := w.isLt
  rw [← BitVec.toNat_inj, be32_toNat]
  simp only [BitVec.toNat_ofNat]
  omega

/-! ## MemRead and MemWrite (R51, R67) -/

theorem memRead_append (pre post : List Byte) (b0 b1 b2 b3 : Byte) :
    memRead (pre ++ [b0, b1, b2, b3] ++ post) pre.length = some (be32 b0 b1 b2 b3) := by
  simp [memRead]

/-- A read of four bytes that are all in the buffer gives a word. -/
theorem memRead_isSome {b : List Byte} {a : Nat} (h : a + 4 ≤ b.length) : (memRead b a).isSome := by
  have hlen : 4 ≤ (b.drop a).length := by rw [List.length_drop]; omega
  match hd : b.drop a, hlen with
  | b0 :: b1 :: b2 :: b3 :: rest, _ => simp [memRead, hd]

/-- A write at the end of the buffer appends the word's four bytes. -/
theorem memWrite_length (pre : List ResItem) (w : Word) :
    memWrite pre pre.length w = pre ++ (bytes32 w).map .byte := by
  simp [memWrite]

/-! ## UNPACK (R52) -/

/-- Every word `UNPACK` reads is in the buffer, so none is left out. -/
theorem map_some_unpack (b : List Byte) :
    (unpack b).map some = (List.range (b.length / 4)).map (fun i => memRead b (4 * i)) := by
  rw [unpack, List.map_filterMap_some_eq_filter_map_isSome, List.filter_eq_self]
  intro o ho
  obtain ⟨i, hi, rfl⟩ := List.mem_map.mp ho
  rw [List.mem_range] at hi
  exact memRead_isSome (by omega)

@[simp] theorem unpack_length (b : List Byte) : (unpack b).length = b.length / 4 := by
  simpa using congrArg List.length (map_some_unpack b)

/-- Word `i` of `UNPACK(b)` is `MemRead(4i, 4)`. -/
theorem unpack_getElem? {b : List Byte} {i : Nat} (h : i < b.length / 4) : (unpack b)[i]? = memRead b (4 * i) := by
  have hget := congrArg (·[i]?) (map_some_unpack b)
  simpa [h] using hget

/-- Settles O18, one clause of R51 to R53 by one lemma. -/
theorem wordsAreBigEndian : Obligations.WordsAreBigEndian := by
  refine ⟨fun b0 b1 b2 b3 => ⟨be32_toNat b0 b1 b2 b3, bytes32_be32 b0 b1 b2 b3⟩,
    fun w => ⟨_, _, _, _, bytes32_eq w, be32_bytes w, rfl, rfl, rfl, rfl⟩,
    memRead_append, memWrite_length, unpack_sixteen, unpack_eight, fun b i hi => ?_, pack_eq⟩
  obtain ⟨w, hw⟩ := Option.isSome_iff_exists.mp (memRead_isSome (b := b) (a := 4 * i) (by omega))
  exact ⟨w, hw, (unpack_getElem? hi).trans hw, unpack_length b⟩

end Sys2Proof.Machine
end

section
/-! PROOF. A command from the acceptance of its header to the last word of its response, and streams of commands
(20_memory.md R59): delivery, the rounds of a transform, the completion, the response taken. -/

namespace Sys2Proof.Machine

/-! ## Delivery (30_encoding.md R72) -/

theorem steps_one (s : State) : steps 1 s = step s := by
  rcases h : step s with t | r | r <;> simp [steps, h]

/-- In IDLE with no response pending the word offered is taken. -/
theorem step_takes_word {s : State} {w : Word} {rest : List Word} (hrst : s.rst = false) (hph : s.ph = .idle)
    (hout : s.rspOut = []) (hcmd : s.cmdIn = w :: rest) : step s = acceptWord w { s with cmdIn := rest } := by
  rw [step_idle hrst hph]
  simp [idleStep, hout, hcmd]

/-- The last words of a command, taken one a step, deliver it. -/
theorem steps_deliver {h : Word} {pre ws rest : List Word} {w : Word} {s : State} (hrst : s.rst = false)
    (hph : s.ph = .idle) (hout : s.rspOut = []) (hcmd : s.cmdIn = w :: ws ++ rest) (hframe : frameWith s.rx w = (h, pre))
    (hlen : pre.length + ws.length = followCount h) :
    steps (ws.length + 1) s = deliver h (pre ++ ws) { s with cmdIn := rest, rx := [] } := by
  induction ws generalizing s w pre with
  | nil =>
    have hstep := step_takes_word hrst hph hout hcmd
    have hwhole : ¬ pre.length < followCount h := by simp at hlen; omega
    simpa [steps_one, acceptWord, hframe, hwhole] using hstep
  | cons w' ws ih =>
    have hstep := step_takes_word hrst hph hout hcmd
    have hpart : pre.length < followCount h := by simp at hlen; omega
    simp only [acceptWord, hframe, hpart, if_true] at hstep
    rw [List.length_cons, steps_succ_of_next hstep]
    have hrun := ih (s := { s with cmdIn := w' :: ws ++ rest, rx := h :: pre }) (pre := pre ++ [w'])
      hrst hph hout rfl rfl (by simp at hlen ⊢; omega)
    simpa using hrun

/-- A whole command offered to a block that is ready is delivered in `F(H) + 1` steps. -/
theorem State.Ready.steps_deliver {h : Word} {ws rest : List Word} {s : State} (hs : s.Ready)
    (hlen : ws.length = followCount h) (hcmd : s.cmdIn = h :: ws ++ rest) :
    steps (followCount h + 1) s = deliver h ws { s with cmdIn := rest } := by
  obtain ⟨hrst, hph, hrx, hout⟩ := hs
  have hrun := Machine.steps_deliver (h := h) (pre := []) hrst hph hout hcmd (by rw [hrx]; rfl) (by simpa using hlen)
  simpa [hlen, hrx] using hrun

/-! ## The rounds of a transform (41_block_codec.md R134, R135) -/

/-- The round step of a direction. -/
def Direction.round : Direction → State → State
  | .forward => State.forwardRound
  | .inverse => State.inverseRound

/-- The loop of a direction: `n` rounds from a sum and a block. -/
def Direction.loop (d : Direction) (k : Key) (n : Nat) (sum : Word) (b : Block) : Block :=
  match d with
  | .forward => encLoop k n sum b
  | .inverse => decLoop k n sum b

theorem Direction.loop_zero (d : Direction) (k : Key) (sum : Word) (b : Block) : d.loop k 0 sum b = b := by
  cases d <;> rfl

/-- One round less is left after a round step. -/
theorem Direction.loop_succ_round (d : Direction) (s : State) (n : Nat) :
    d.loop s.k (n + 1) s.sum s.block = d.loop s.k n (d.round s).sum (d.round s).block := by
  cases d <;> rfl

/-- From the start step's sum, `ROUNDS` rounds are the transform. -/
theorem Direction.loop_startSum (d : Direction) (k : Key) (rounds : Word) (b : Block) :
    d.loop k rounds.toNat (d.startSum rounds) b = d.transform b k rounds.toNat := by
  cases d <;> rfl

/-- The state with other working registers: all that a round step writes. -/
def State.withWorking (s : State) (b : Block) (sum rc : Word) : State :=
  { s with y := b.y, z := b.z, sum := sum, rc := rc }

@[simp] theorem State.withWorking_rc (s : State) (b : Block) (sum rc : Word) : (s.withWorking b sum rc).rc = rc := rfl
@[simp] theorem State.withWorking_rounds (s : State) (b : Block) (sum rc : Word) :
    (s.withWorking b sum rc).rounds = s.rounds := rfl

/-- A round step writes the working registers, and counts. -/
theorem Direction.round_eq (d : Direction) (s : State) :
    d.round s = s.withWorking (d.round s).block (d.round s).sum (s.rc + 1) := by
  cases d <;> rfl

/-- A step in a running phase is the running step of the phase's round. -/
theorem step_running {d : Direction} {s : State} (hrst : s.rst = false) (hph : s.ph = d.phase) :
    step s = runningStep d.round s := by
  cases d with
  | forward => exact step_runEnc hrst hph
  | inverse => exact step_runDec hrst hph

/-- While `RC < ROUNDS` that is one round. -/
theorem step_round {d : Direction} {s : State} (hrst : s.rst = false) (hph : s.ph = d.phase)
    (hlt : s.rc.toNat < s.rounds.toNat) : step s = .next (d.round s) := by
  rw [step_running hrst hph, runningStep, if_pos hlt]

/-- `n` steps of a running transform with at least `n` rounds left: `n` rounds, which write the working registers alone. -/
theorem steps_rounds {d : Direction} {s : State} (n : Nat) (hrst : s.rst = false) (hph : s.ph = d.phase)
    (hleft : s.rc.toNat + n ≤ s.rounds.toNat) :
    ∃ sum rc, rc.toNat = s.rc.toNat + n ∧ steps n s = .next (s.withWorking (d.loop s.k n s.sum s.block) sum rc) := by
  induction n generalizing s with
  | zero => exact ⟨s.sum, s.rc, rfl, by rw [d.loop_zero]; rfl⟩
  | succ n ih =>
    have hrc : (s.rc + 1).toNat = s.rc.toNat + 1 := by
      have := s.rounds.isLt
      exact BitVec.toNat_add_of_lt (by simp; omega)
    have hround := d.round_eq s
    obtain ⟨sum, rc, hcount, hrun⟩ := ih (s := s.withWorking (d.round s).block (d.round s).sum (s.rc + 1)) hrst hph
      (by rw [State.withWorking_rc, State.withWorking_rounds]; omega)
    rw [State.withWorking_rc] at hcount
    refine ⟨sum, rc, by omega, ?_⟩
    rw [steps_succ_of_next (step_round hrst hph (by omega)), hround, hrun, d.loop_succ_round]
    rfl

/-! ## The completion (41_block_codec.md R136) -/

/-- With `RC = ROUNDS` a step completes the transform. -/
theorem step_completes {d : Direction} {s : State} {items : List ResItem} (hrst : s.rst = false) (hph : s.ph = d.phase)
    (hrc : s.rc = s.rounds) (hitems : resultItems s.opl s.block = some items) : step s = .next (completed s items) := by
  simp [step_running hrst hph, runningStep, completionStep, completed, hrc, hitems]

/-- The opcode a transform leaves in `OPL` names its command's result form. -/
theorem resultItems_opcode {i : Instr} (b : Block) (h : isTransform i = true) :
    resultItems i.opcode b = some (itemsOf i b) := by
  cases i with
  | encrypt | decrypt | encryptBlock | decryptBlock => rfl
  | keysize | blocksize | newBytes | newWords => cases h

/-- A transform from its start step: `ROUNDS` rounds and the completion, which answers the transformed block. -/
theorem steps_transform {i : Instr} {s : State} (b : Block) (h : isTransform i = true) (hrst : s.rst = false) :
    ∃ sum rc,
      steps (s.rounds.toNat + 1) (s.startStep (directionOf i) i.opcode b) =
        .next (completed
          ((s.startStep (directionOf i) i.opcode b).withWorking
            ((directionOf i).transform b s.k s.rounds.toNat) sum rc)
          (itemsOf i ((directionOf i).transform b s.k s.rounds.toNat))) := by
  obtain ⟨sum, rc, hcount, hrun⟩ := steps_rounds (d := directionOf i) (s := s.startStep (directionOf i) i.opcode b)
    s.rounds.toNat hrst rfl (by simp)
  have hrc : rc = s.rounds := BitVec.eq_of_toNat_eq (by simpa using hcount)
  rw [State.startStep_k, State.startStep_sum, State.startStep_block, Direction.loop_startSum] at hrun
  refine ⟨sum, rc, ?_⟩
  rw [steps_add _ _ hrun, steps_one]
  exact step_completes hrst rfl hrc (resultItems_opcode _ h)

/-! ## The block as the host sees it at a command boundary -/

/-- No reset, IDLE at a header boundary, the host taking responses; the Cipher is `c`, the words `offered` are on the command
channel, the response words `pending` are not yet taken and `taken` are. -/
structure State.AtBoundary (s : State) (c : Cipher) (offered pending taken : List Word) : Prop where
  rst : s.rst = false
  ph : s.ph = .idle
  rx : s.rx = []
  rspReady : s.rspReady = true
  cipher : s.cipher = c
  cmdIn : s.cmdIn = offered
  rspOut : s.rspOut = pending
  rspTaken : s.rspTaken = taken

theorem State.AtBoundary.ready {s : State} {c : Cipher} {offered taken : List Word} (h : s.AtBoundary c offered [] taken) :
    s.Ready := ⟨h.rst, h.ph, h.rx, h.rspOut⟩

theorem State.Ready.atBoundary {s : State} (h : s.Ready) (hrdy : s.rspReady = true) :
    s.AtBoundary s.cipher s.cmdIn [] s.rspTaken := by
  obtain ⟨hrst, hph, hrx, hout⟩ := h
  exact ⟨hrst, hph, hrx, hrdy, rfl, rfl, hout, rfl⟩

/-- The host that is ready takes the pending words one a step, in order. -/
theorem steps_take_response {s : State} {c : Cipher} {offered pending taken : List Word}
    (h : s.AtBoundary c offered pending taken) :
    ∃ t, steps pending.length s = .next t ∧ t.AtBoundary c offered [] (taken ++ pending) := by
  induction pending generalizing s taken with
  | nil => exact ⟨s, rfl, by simpa using h⟩
  | cons w rest ih =>
    have hstep : step s = .next (takeResponse w rest s) := by
      rw [step_idle h.rst h.ph]
      simp [idleStep, h.rspOut, h.rspReady]
    have htaken : (takeResponse w rest s).AtBoundary c offered rest (taken ++ [w]) := by
      constructor <;> simp [h.rst, h.ph, h.rx, h.rspReady, h.cipher, h.cmdIn, h.rspTaken]
    obtain ⟨t, hrun, ht⟩ := ih htaken
    exact ⟨t, by rw [List.length_cons, steps_succ_of_next hstep, hrun], by simpa using ht⟩

/-! ## One command, from its delivery to its response -/

/-- The steps a command runs after its last word is taken: the rounds and the completion of a transform that starts, none of
the other commands. -/
def execSteps (i : Instr) (c : Cipher) : Nat :=
  match (transact i c).2 with
  | .ok _ => if isTransform i then c.rounds.toNat + 1 else 0
  | .err _ => 0

theorem isTransform_eq_false_of_isNew {i : Instr} (h : isNew i = true) : isTransform i = false := by
  cases i with
  | newBytes | newWords => rfl
  | keysize | blocksize | encrypt | decrypt | encryptBlock | decryptBlock => cases h

/-- A command executed at a boundary with no response pending comes to the boundary its transaction gives. -/
theorem exec_runs_transaction (i : Instr) {s : State} {c : Cipher} {offered taken : List Word}
    (h : s.AtBoundary c offered [] taken) :
    ∃ t u, exec i s = .next t ∧ steps (execSteps i c) t = .next u ∧
      u.AtBoundary (transact i c).1 offered (transactWords i c) taken := by
  obtain ⟨hrst, hph, hrx, hrdy, rfl, hcmd, hout, htaken⟩ := h
  rcases exec_cases i s with ⟨a, hexec, htr, hfail⟩ | ⟨k, n, hexec, hnew, htr⟩ | ⟨b, hexec, htf, -, htr⟩
  · have hsteps : execSteps i s.cipher = 0 := by
      cases a with
      | err e => simp [execSteps, htr]
      | ok items =>
        have : isTransform i = false := by simpa using fun ht => hfail (.inr ht)
        simp [execSteps, htr, this]
    refine ⟨_, _, hexec, by rw [hsteps, steps_zero], ?_⟩
    constructor <;> simp [transactWords, *]
  · have hsteps : execSteps i s.cipher = 0 := by simp [execSteps, htr, isTransform_eq_false_of_isNew hnew]
    refine ⟨_, _, hexec, by rw [hsteps, steps_zero], ?_⟩
    constructor <;> simp [transactWords, *]
  · have hsteps : execSteps i s.cipher = s.rounds.toNat + 1 := by simp only [execSteps, htr, htf, if_true]; rfl
    obtain ⟨sum, rc, hrun⟩ := steps_transform (s := s.loadIB (operandItems i)) b htf hrst
    refine ⟨_, _, hexec, hsteps ▸ hrun, ?_⟩
    rw [transactWords, htr]
    exact ⟨hrst, rfl, hrx, hrdy, rfl, hcmd, congrArg (· ++ _) hout, htaken⟩

/-- The steps after the last word of a header and its following words, legal or not, is taken. -/
def deliverSteps (h : Word) (ws : List Word) (c : Cipher) : Nat :=
  match decode h ws with
  | .ok i => execSteps i c
  | .error _ => 0

/-- The same for words that may spell no command. -/
theorem deliver_runs_transaction (h : Word) (ws : List Word) {s : State} {c : Cipher} {offered taken : List Word}
    (hs : s.AtBoundary c offered [] taken) :
    ∃ t u, deliver h ws s = .next t ∧ steps (deliverSteps h ws c) t = .next u ∧
      u.AtBoundary (transactFrame h ws c).1 offered (transactFrame h ws c).2 taken := by
  rcases hdec : decode h ws with e | i
  · simp only [deliver, deliverSteps, transactFrame, hdec]
    refine ⟨_, _, rfl, rfl, ?_⟩
    obtain ⟨hrst, hph, hrx, hrdy, hc, hcmd, hout, htaken⟩ := hs
    constructor <;> simp [*]
  · simp only [deliver, deliverSteps, transactFrame, hdec]
    exact exec_runs_transaction i hs

/-- The steps of a whole command: its words taken, its execution, its response words taken. They depend on the command and
the Cipher alone. -/
def frameSteps (h : Word) (ws : List Word) (c : Cipher) : Nat :=
  followCount h + 1 + (deliverSteps h ws c + (transactFrame h ws c).2.length)

/-- A whole command offered at a boundary: the block comes to the boundary behind it, with its transaction done and its
response taken. -/
theorem steps_frame {h : Word} {ws rest : List Word} {s : State} {c : Cipher} {taken : List Word}
    (hlen : ws.length = followCount h) (hs : s.AtBoundary c (h :: ws ++ rest) [] taken) :
    ∃ t, steps (frameSteps h ws c) s = .next t ∧
      t.AtBoundary (transactFrame h ws c).1 rest [] (taken ++ (transactFrame h ws c).2) := by
  have hdelivered : State.AtBoundary { s with cmdIn := rest } c rest [] taken := { hs with cmdIn := rfl }
  obtain ⟨t, u, hdeliver, hrun, hu⟩ := deliver_runs_transaction h ws hdelivered
  obtain ⟨v, htake, hv⟩ := steps_take_response hu
  refine ⟨v, ?_, hv⟩
  calc steps (frameSteps h ws c) s
      = steps (deliverSteps h ws c + (transactFrame h ws c).2.length) t :=
        steps_add _ _ ((hs.ready.steps_deliver hlen hs.cmdIn).trans hdeliver)
    _ = steps (transactFrame h ws c).2.length u := steps_add _ _ hrun
    _ = .next v := htake

/-! ## Streams of commands (20_memory.md R59) -/

/-- The run over a stream of whole commands is the session. -/
theorem steps_session {fs : List (Word × List Word)} {rest taken : List Word} {s : State} {c : Cipher}
    (hwhole : wholeFrames fs) (hs : s.AtBoundary c (channelWords fs ++ rest) [] taken) :
    ∃ n t, steps n s = .next t ∧ t.AtBoundary (session fs c).1 rest [] (taken ++ (session fs c).2) := by
  induction fs generalizing s c taken with
  | nil => exact ⟨0, s, rfl, by simpa [channelWords, session] using hs⟩
  | cons f fs ih =>
    obtain ⟨hf, hfs⟩ := List.forall_mem_cons.mp hwhole
    have hoffered : channelWords (f :: fs) ++ rest = f.1 :: f.2 ++ (channelWords fs ++ rest) := by simp [channelWords]
    obtain ⟨t, hfirst, ht⟩ := steps_frame hf (hoffered ▸ hs)
    obtain ⟨n, u, hothers, hu⟩ := ih hfs ht
    exact ⟨frameSteps f.1 f.2 c + n, u, (steps_add _ _ hfirst).trans hothers, by simpa [session] using hu⟩

/-- Settles O58: by induction on the stream, each command run whole by `steps_frame`. -/
theorem commandStreamsRunInOrder : Obligations.CommandStreamsRunInOrder := by
  intro fs rest s hwhole hready hrdy hcmd
  obtain ⟨n, t, hrun, ht⟩ := steps_session hwhole (hcmd ▸ hready.atBoundary hrdy)
  exact ⟨n, t, hrun, ht.ready, ht.cmdIn, ht.cipher, ht.rspTaken⟩

end Sys2Proof.Machine
end

section
/-! PROOF. What the decoder reads (30_encoding.md R73 to R77): a header is its six fields, and the words of a command spell
exactly one instruction. -/

namespace Sys2Proof.Machine

/-! ## A header and its fields (R71) -/

/-- A header word is its six fields. -/
theorem header_eq_iff {g h : Word} :
    g = h ↔ opField g = opField h ∧ kfBit g = kfBit h ∧ rpBit g = rpBit h ∧ riBit g = riBit h ∧
      reservedField g = reservedField h ∧ lenField g = lenField h := by
  refine ⟨by rintro rfl; simp, fun ⟨hop, hkf, hrp, hri, hres, hlen⟩ => BitVec.eq_of_toNat_eq ?_⟩
  rw [← BitVec.toNat_inj, opField_toNat, opField_toNat] at hop
  rw [← BitVec.toNat_inj, reservedField_toNat, reservedField_toNat] at hres
  rw [kfBit_eq, kfBit_eq, decide_eq_decide] at hkf
  rw [rpBit_eq, rpBit_eq, decide_eq_decide] at hrp
  rw [riBit_eq, riBit_eq, decide_eq_decide] at hri
  rw [lenField_eq, lenField_eq] at hlen
  omega

/-- A masked header is a match word, which has `RP`, `RI` and `LEN` zero, when each masked field is. -/
theorem and_eq_mkHeader_iff (h mask : Word) (op : Opcode) (kf : Bool) :
    h &&& mask = mkHeader op kf false false 0 ↔
      opField h &&& opField mask = op ∧ (kfBit h && kfBit mask) = kf ∧ (rpBit h && rpBit mask) = false ∧
        (riBit h && riBit mask) = false ∧ reservedField h &&& reservedField mask = 0 ∧
        lenField h &&& lenField mask = 0 := by
  obtain ⟨hop, hkf, hrp, hri, hres, hlen⟩ := mkHeader_fields op kf false false (len := 0) (by decide)
  rw [header_eq_iff, hop, hkf, hrp, hri, hres, hlen]
  simp [opField, kfBit, rpBit, riBit, reservedField, lenField, BitVec.extractLsb'_and]

theorem newOnlySet_eq_false_iff (h : Word) :
    newOnlySet h = false ↔ kfBit h = false ∧ rpBit h = false ∧ riBit h = false := by
  simp [newOnlySet, and_assoc]

/-- The mask of the queries leaves no field open. -/
theorem and_queryMask_eq_iff (h : Word) (op : Opcode) :
    h &&& 0xFFFFFFFF = mkHeader op false false false 0 ↔
      reservedField h = 0 ∧ opField h = op ∧ newOnlySet h = false ∧ lenField h = 0 := by
  obtain ⟨hop, hkf, hrp, hri, hres, hlen⟩ := mkHeader_fields op false false false (len := 0) (by decide)
  have hmask : h &&& 0xFFFFFFFF = h := BitVec.and_allOnes
  rw [hmask, header_eq_iff, hop, hkf, hrp, hri, hres, hlen, newOnlySet_eq_false_iff]
  tauto

/-- The mask of the transforms leaves `LEN` open. -/
theorem and_transformMask_eq_iff (h : Word) (op : Opcode) :
    h &&& 0xFFFFFFE0 = mkHeader op false false false 0 ↔
      reservedField h = 0 ∧ opField h = op ∧ newOnlySet h = false := by
  have hmask : opField 0xFFFFFFE0 = BitVec.allOnes 4 ∧ kfBit 0xFFFFFFE0 = true ∧ rpBit 0xFFFFFFE0 = true ∧
      riBit 0xFFFFFFE0 = true ∧ reservedField 0xFFFFFFE0 = BitVec.allOnes 20 ∧ lenField 0xFFFFFFE0 = 0 := by decide
  obtain ⟨mop, mkf, mrp, mri, mres, mlen⟩ := hmask
  rw [and_eq_mkHeader_iff, mop, mkf, mrp, mri, mres, mlen, newOnlySet_eq_false_iff]
  simp only [BitVec.and_allOnes, Bool.and_true, Nat.and_zero]
  tauto

/-- The mask of the two `NEW` forms leaves `RP`, `RI` and `LEN` open. -/
theorem and_newMask_eq_iff (h : Word) (op : Opcode) (kf : Bool) :
    h &&& 0xF9FFFFE0 = mkHeader op kf false false 0 ↔ reservedField h = 0 ∧ opField h = op ∧ kfBit h = kf := by
  have hmask : opField 0xF9FFFFE0 = BitVec.allOnes 4 ∧ kfBit 0xF9FFFFE0 = true ∧ rpBit 0xF9FFFFE0 = false ∧
      riBit 0xF9FFFFE0 = false ∧ reservedField 0xF9FFFFE0 = BitVec.allOnes 20 ∧ lenField 0xF9FFFFE0 = 0 := by decide
  obtain ⟨mop, mkf, mrp, mri, mres, mlen⟩ := hmask
  rw [and_eq_mkHeader_iff, mop, mkf, mrp, mri, mres, mlen]
  simp only [BitVec.and_allOnes, Bool.and_true, Bool.and_false, Nat.and_zero]
  tauto

/-! ## The operands (R73 to R75) -/

theorem byteItems_eq_ok_iff (ws : List Word) (b : List Byte) :
    byteItems ws = .ok b ↔ (∀ w ∈ ws, w.toNat < 256) ∧ b = ws.map (fun w => w.extractLsb' 0 8) := by
  rcases byteItems_cases ws with ⟨hok, hclean⟩ | ⟨herr, w, hw, hbig⟩
  · rw [hok]
    exact ⟨fun h => ⟨hclean, (Except.ok.inj h).symm⟩, fun ⟨_, h⟩ => congrArg _ h.symm⟩
  · simp only [herr, reduceCtorEq, false_iff, not_and]
    exact fun hclean => absurd (hclean w hw) (by omega)

/-- Where the words reach as far as `RVAL`, there is a rounds operand, and the items are the words behind it. -/
theorem takeRounds_of_le {h : Word} {ws : List Word} (hle : (rpBit h).toNat ≤ ws.length) :
    ∃ r, takeRounds h ws = .ok (r, itemWords h ws) := by
  rcases takeRounds_cases h ws with ⟨hrp, ht⟩ | ⟨v, rest, hrp, rfl, ht⟩ | ⟨hrp, rfl, -⟩
  · exact ⟨_, by simpa [itemWords, hrp] using ht⟩
  · exact ⟨_, by simpa [itemWords, hrp] using ht⟩
  · simp [hrp] at hle

/-- The item words are the words behind `RVAL`. -/
theorem takeRounds_items {h : Word} {ws items : List Word} {r : RoundsArg} (ht : takeRounds h ws = .ok (r, items)) :
    items = itemWords h ws := by
  rcases takeRounds_cases h ws with ⟨hrp, hr⟩ | ⟨v, rest, hrp, rfl, hr⟩ | ⟨hrp, rfl, hr⟩ <;> rw [hr] at ht
  · cases ht
    simp [itemWords, hrp]
  · cases ht
    simp [itemWords, hrp]
  · cases ht

/-! ## What words spell (R76) -/

/-- The following words give the operands of the instruction, where its operation is the header's. -/
def GivesOperands (h : Word) (ws : List Word) : Instr → Prop
  | .keysize | .blocksize => newOnlySet h = false ∧ lenField h = 0
  | .newBytes key r => kfBit h = false ∧ ∃ items, takeRounds h ws = .ok (r, items) ∧ byteItems items = .ok key
  | .newWords key r =>
    kfBit h = true ∧ ∃ emask elems, takeRounds h ws = .ok (r, emask :: elems) ∧ key = keyElems emask 0 elems
  | .encrypt b | .decrypt b => newOnlySet h = false ∧ byteItems ws = .ok b
  | .encryptBlock w | .decryptBlock w => newOnlySet h = false ∧ w = ws

theorem decodeQuery_eq_ok_iff {i j : Instr} {h : Word} :
    decodeQuery i h = .ok j ↔ newOnlySet h = false ∧ lenField h = 0 ∧ j = i := by
  unfold decodeQuery
  split
  · simp [*]
  · split <;> simp [*, eq_comm (a := j)]

theorem decodeBytes_eq_ok_iff {mk : List Byte → Instr} {j : Instr} {h : Word} {ws : List Word} :
    decodeBytes mk h ws = .ok j ↔ newOnlySet h = false ∧ ∃ b, byteItems ws = .ok b ∧ j = mk b := by
  unfold decodeBytes
  split
  · simp [*]
  · split <;> simp [*, eq_comm]

theorem decodeWords_eq_ok_iff {mk : List Word → Instr} {j : Instr} {h : Word} {ws : List Word} :
    decodeWords mk h ws = .ok j ↔ newOnlySet h = false ∧ j = mk ws := by
  unfold decodeWords
  split <;> simp [*, eq_comm]

/-- The two `NEW` forms share operation code 3, which no other command has. -/
theorem isNew_eq_true_iff (i : Instr) : isNew i = true ↔ i.opcode = 3 := by
  cases i <;> simp [isNew, Instr.opcode]

/-- `NEW` is one form or the other, by `KF`. -/
theorem decodeNew_eq_ok_iff {h : Word} {ws : List Word} {j : Instr} :
    decodeNew h ws = .ok j ↔ isNew j = true ∧ GivesOperands h ws j := by
  constructor
  · intro hd
    unfold decodeNew at hd
    split at hd
    · cases hd
    next r items htake =>
      split at hd
      next hkf =>
        split at hd
        · cases hd
          exact ⟨rfl, hkf, _, _, htake, rfl⟩
        · cases hd
      next hkf =>
        split at hd
        next key hkey =>
          cases hd
          exact ⟨rfl, by simpa using hkf, items, htake, hkey⟩
        · cases hd
  · rintro ⟨hnew, hops⟩
    cases j with
    | newBytes key r =>
      obtain ⟨hkf, items, htake, hkey⟩ := hops
      simp [decodeNew, htake, hkf, hkey]
    | newWords key r =>
      obtain ⟨hkf, emask, elems, htake, rfl⟩ := hops
      simp [decodeNew, htake, hkf]
    | keysize | blocksize | encrypt | decrypt | encryptBlock | decryptBlock => cases hnew

/-- Words decode to an instruction exactly when the reserved bits are zero, the words are as many as the header announces, its
operation is the instruction's and the words give its operands. -/
theorem decode_eq_ok_iff {h : Word} {ws : List Word} {i : Instr} :
    decode h ws = .ok i ↔
      reservedField h = 0 ∧ ws.length = followCount h ∧ opField h = i.opcode ∧ GivesOperands h ws i := by
  constructor
  · intro hd
    have hres : reservedField h = 0 := by
      by_contra hne
      rw [decode, if_pos hne] at hd
      cases hd
    have hlen : ws.length = followCount h := by
      by_contra hne
      rw [decode, if_neg (not_not.mpr hres), if_pos hne] at hd
      cases hd
    refine ⟨hres, hlen, ?_⟩
    rw [decode_eq h ws hlen hres] at hd
    split at hd
    case h_1 hop | h_2 hop =>
      obtain ⟨hset, hzero, rfl⟩ := decodeQuery_eq_ok_iff.mp hd
      exact ⟨BitVec.eq_of_toNat_eq hop, hset, hzero⟩
    case h_3 hop =>
      obtain ⟨hnew, hops⟩ := decodeNew_eq_ok_iff.mp hd
      exact ⟨(BitVec.eq_of_toNat_eq hop).trans ((isNew_eq_true_iff i).mp hnew).symm, hops⟩
    case h_4 hop | h_5 hop =>
      obtain ⟨hset, b, hb, rfl⟩ := decodeBytes_eq_ok_iff.mp hd
      exact ⟨BitVec.eq_of_toNat_eq hop, hset, hb⟩
    case h_6 hop | h_7 hop =>
      obtain ⟨hset, rfl⟩ := decodeWords_eq_ok_iff.mp hd
      exact ⟨BitVec.eq_of_toNat_eq hop, hset, rfl⟩
    case h_8 => cases hd
  · rintro ⟨hres, hlen, hop, hops⟩
    rw [decode_eq h ws hlen hres, hop]
    cases i with
    | keysize | blocksize => exact decodeQuery_eq_ok_iff.mpr ⟨hops.1, hops.2, rfl⟩
    | newBytes | newWords => exact decodeNew_eq_ok_iff.mpr ⟨rfl, hops⟩
    | encrypt b | decrypt b => exact decodeBytes_eq_ok_iff.mpr ⟨hops.1, b, hops.2, rfl⟩
    | encryptBlock w | decryptBlock w => exact decodeWords_eq_ok_iff.mpr ⟨hops.1, by rw [hops.2]⟩

/-! ## The rows of the opcode table (R77) -/

/-- There are byte items exactly when no word has a bit above bit 7. -/
theorem exists_byteItems_eq_ok_iff (ws : List Word) : (∃ b, byteItems ws = .ok b) ↔ ∀ w ∈ ws, w.toNat < 256 := by
  simp [byteItems_eq_ok_iff]

/-- The item words of a command other than `NEW` are all that follow. -/
theorem itemWords_of_newOnlySet_eq_false {h : Word} (hset : newOnlySet h = false) (ws : List Word) : itemWords h ws = ws := by
  obtain ⟨-, hrp, -⟩ := (newOnlySet_eq_false_iff h).mp hset
  simp [itemWords, hrp]

/-- A query is decoded exactly from the match word of its row. -/
theorem decode_query_iff {h : Word} {ws : List Word} {i : Instr} (hlen : ws.length = followCount h)
    (hops : GivesOperands h ws i ↔ newOnlySet h = false ∧ lenField h = 0) :
    decode h ws = .ok i ↔ h &&& 0xFFFFFFFF = mkHeader i.opcode false false false 0 := by
  rw [decode_eq_ok_iff, and_queryMask_eq_iff, hops]
  simp [hlen]

/-- A byte-form transform is decoded exactly from its row's match under the mask, and from byte items. -/
theorem exists_decode_bytes_iff {h : Word} {ws : List Word} (mk : List Byte → Instr) (op : Opcode)
    (hlen : ws.length = followCount h) (hop : ∀ b, (mk b).opcode = op)
    (hops : ∀ b, GivesOperands h ws (mk b) ↔ newOnlySet h = false ∧ byteItems ws = .ok b) :
    (∃ b, decode h ws = .ok (mk b)) ↔ h &&& 0xFFFFFFE0 = mkHeader op false false false 0 ∧ bytesClean h ws := by
  simp only [decode_eq_ok_iff, hlen, hop, hops, true_and, exists_and_left, exists_byteItems_eq_ok_iff,
    and_transformMask_eq_iff, bytesClean, and_assoc]
  refine and_congr_right fun _ => and_congr_right fun _ => and_congr_right fun hset => ?_
  rw [itemWords_of_newOnlySet_eq_false hset]

/-- A word-form transform is decoded exactly from its row's match under the mask. -/
theorem exists_decode_words_iff {h : Word} {ws : List Word} (mk : List Word → Instr) (op : Opcode)
    (hlen : ws.length = followCount h) (hop : ∀ w, (mk w).opcode = op)
    (hops : ∀ w, GivesOperands h ws (mk w) ↔ newOnlySet h = false ∧ w = ws) :
    (∃ w, decode h ws = .ok (mk w)) ↔ h &&& 0xFFFFFFE0 = mkHeader op false false false 0 := by
  rw [and_transformMask_eq_iff]
  simp [decode_eq_ok_iff, hlen, hop, hops]

/-- `NEW.BYTES` is decoded exactly from its row's match under the mask, and from byte items. -/
theorem exists_decode_newBytes_iff {h : Word} {ws : List Word} (hlen : ws.length = followCount h) :
    (∃ key r, decode h ws = .ok (.newBytes key r)) ↔
      h &&& 0xF9FFFFE0 = mkHeader 3 false false false 0 ∧ bytesClean h ws := by
  rw [and_newMask_eq_iff]
  constructor
  · rintro ⟨key, r, hd⟩
    obtain ⟨hres, -, hop, hkf, items, htake, hkey⟩ := decode_eq_ok_iff.mp hd
    rw [takeRounds_items htake] at hkey
    exact ⟨⟨hres, hop, hkf⟩, (exists_byteItems_eq_ok_iff _).mp ⟨key, hkey⟩⟩
  · rintro ⟨⟨hres, hop, hkf⟩, hclean⟩
    obtain ⟨r, htake⟩ := takeRounds_of_le (h := h) (ws := ws) (by rw [hlen, followCount]; omega)
    obtain ⟨key, hkey⟩ := (exists_byteItems_eq_ok_iff _).mpr hclean
    exact ⟨key, r, decode_eq_ok_iff.mpr ⟨hres, hlen, hop, hkf, _, htake, hkey⟩⟩

/-- `NEW.WORDS` is decoded exactly from its row's match under the mask. -/
theorem exists_decode_newWords_iff {h : Word} {ws : List Word} (hlen : ws.length = followCount h) :
    (∃ key r, decode h ws = .ok (.newWords key r)) ↔ h &&& 0xF9FFFFE0 = mkHeader 3 true false false 0 := by
  rw [and_newMask_eq_iff]
  constructor
  · rintro ⟨key, r, hd⟩
    obtain ⟨hres, -, hop, hkf, -⟩ := decode_eq_ok_iff.mp hd
    exact ⟨hres, hop, hkf⟩
  · rintro ⟨hres, hop, hkf⟩
    have hcount : (rpBit h).toNat < ws.length := by
      rw [hlen, followCount, hkf, Bool.toNat_true]
      omega
    obtain ⟨r, htake⟩ := takeRounds_of_le hcount.le
    rw [itemWords, List.drop_eq_getElem_cons hcount] at htake
    exact ⟨_, r, decode_eq_ok_iff.mpr ⟨hres, hlen, hop, hkf, _, _, htake, rfl⟩⟩

/-- Settles O45, one row by one lemma; a row's match word is the header with every field its mask leaves open 0. -/
theorem headersSelectTheirTableRow : Obligations.HeadersSelectTheirTableRow := by
  intro h ws hlen
  refine ⟨?keysize, ?blocksize, ?newBytes, ?newWords, ?encrypt, ?decrypt, ?encryptBlock, ?decryptBlock⟩
  case keysize | blocksize => exact decode_query_iff hlen Iff.rfl
  case newBytes => exact exists_decode_newBytes_iff hlen
  case newWords => exact exists_decode_newWords_iff hlen
  case encrypt => exact exists_decode_bytes_iff .encrypt 4 hlen (fun _ => rfl) fun _ => Iff.rfl
  case decrypt => exact exists_decode_bytes_iff .decrypt 5 hlen (fun _ => rfl) fun _ => Iff.rfl
  case encryptBlock => exact exists_decode_words_iff .encryptBlock 6 hlen (fun _ => rfl) fun _ => Iff.rfl
  case decryptBlock => exact exists_decode_words_iff .decryptBlock 7 hlen (fun _ => rfl) fun _ => Iff.rfl

/-! ## The rounds operand (R73) -/

/-- R73's formula for the value of an `RVAL` word: "low bits - 2^31 * top bit". -/
theorem word_toInt (v : Word) : v.toInt = (v.toNat % 2 ^ 31 : Nat) - 2 ^ 31 * (v.toNat / 2 ^ 31 : Nat) := by
  have := v.isLt
  rw [BitVec.toInt_eq_toNat_cond]
  split <;> omega

/-- An instruction from a header with `OP = 3` is a `NEW` form with the rounds operand the words bring. -/
theorem decode_new_takes_rounds {h : Word} {ws items : List Word} {r : RoundsArg} {i : Instr} (hop : opField h = 3)
    (htake : takeRounds h ws = .ok (r, items)) (hd : decode h ws = .ok i) :
    (∃ key, i = .newBytes key r) ∨ ∃ key, i = .newWords key r := by
  obtain ⟨-, -, hopcode, hops⟩ := decode_eq_ok_iff.mp hd
  have hnew : isNew i = true := (isNew_eq_true_iff i).mpr (hopcode ▸ hop)
  cases i with
  | newBytes key r' =>
    obtain ⟨-, items', htake', -⟩ := hops
    cases htake.symm.trans htake'
    exact .inl ⟨key, rfl⟩
  | newWords key r' =>
    obtain ⟨-, emask, elems, htake', -⟩ := hops
    cases htake.symm.trans htake'
    exact .inr ⟨key, rfl⟩
  | keysize | blocksize | encrypt | decrypt | encryptBlock | decryptBlock => cases hnew

/-- Only `NEW` sets `KF`, `RP` or `RI`. -/
theorem opField_of_newOnlySet {h : Word} {ws : List Word} {i : Instr} (hset : newOnlySet h = true)
    (hd : decode h ws = .ok i) : opField h = 3 := by
  obtain ⟨-, -, hopcode, hops⟩ := decode_eq_ok_iff.mp hd
  cases i with
  | newBytes | newWords => exact hopcode
  | keysize | blocksize | encrypt | decrypt | encryptBlock | decryptBlock =>
    exact absurd (hset.symm.trans hops.1) (by decide)

/-- Settles O48: the operand `takeRounds` reads is the one of the `NEW` form decoded. -/
theorem rvalIsTwosComplement : Obligations.RvalIsTwosComplement := by
  refine ⟨fun h v ws i hrp hd => ?_, fun h ws i hop hrp hd => ?_⟩
  · have hop : opField h = 3 := opField_of_newOnlySet (by simp [newOnlySet, hrp]) hd
    rw [← word_toInt]
    exact decode_new_takes_rounds hop (items := ws) (by simp [takeRounds, hrp]) hd
  · exact decode_new_takes_rounds hop (items := ws) (by simp [takeRounds, hrp]) hd

/-! ## The key elements (R74) -/

/-- Settles O49: the words behind `EMASK` are read by `keyElems`, and the frame's length says how many they are. -/
theorem emaskBitsTagTheElements : Obligations.EmaskBitsTagTheElements := by
  intro h m ws pre key r hpre hd
  obtain ⟨-, hlen, -, hkf, emask, elems, htake, rfl⟩ := decode_eq_ok_iff.mp hd
  have hitems : emask :: elems = m :: ws := (takeRounds_items htake).trans (by rw [itemWords, ← hpre, List.drop_left])
  obtain ⟨rfl, rfl⟩ := List.cons.inj hitems
  refine ⟨?_, fun j w hj => by rw [keyElems_get, hj, Nat.zero_add]; rfl⟩
  simp only [followCount, hkf, Bool.toNat_true, List.length_append, List.length_cons] at hlen
  rw [keyElems_length]
  omega

end Sys2Proof.Machine
end

section
/-! PROOF. Key normalisation and the round count (40_key_schedule.md R101 to R105), and the two `NEW` commands, which check
them in that order (R106 to R108). -/

namespace Sys2Proof.Machine

/-! ## The key (R101, R102) -/

theorem ksBytes_of_length_ne {b : List Byte} (h : b.length ≠ 16) : ksBytes b = .error .invalidKeyLength := if_neg h

theorem ksBytes_sixteen (b0 b1 b2 b3 b4 b5 b6 b7 b8 b9 b10 b11 b12 b13 b14 b15 : Byte) :
    ksBytes [b0, b1, b2, b3, b4, b5, b6, b7, b8, b9, b10, b11, b12, b13, b14, b15] =
      .ok ⟨be32 b0 b1 b2 b3, be32 b4 b5 b6 b7, be32 b8 b9 b10 b11, be32 b12 b13 b14 b15⟩ := by
  rw [ksBytes, unpack_sixteen]
  rfl

theorem exists_ksBytes_eq_ok {b : List Byte} (h : b.length = 16) : ∃ k, ksBytes b = .ok k := by
  obtain ⟨b0, b1, b2, b3, b4, b5, b6, b7, b8, b9, b10, b11, b12, b13, b14, b15, rfl⟩ := sixteen_of_length h
  exact ⟨_, ksBytes_sixteen ..⟩

/-- Settles O20: another length is refused, and sixteen bytes unpack to four words. -/
theorem sixteenBytesAreFourKeyWords : Obligations.SixteenBytesAreFourKeyWords :=
  ⟨fun _ h => ksBytes_of_length_ne h, ksBytes_sixteen⟩

theorem ksWords_of_length_ne {e : List KeyElem} (h : e.length ≠ 4) : ksWords e = .error .invalidKeyShape := by
  unfold ksWords
  split
  next => exact absurd rfl h
  next => exact absurd rfl h
  next => rfl

theorem ksWords_ints (v0 v1 v2 v3 : Word) : ksWords [.int v0, .int v1, .int v2, .int v3] = .ok ⟨v0, v1, v2, v3⟩ := rfl

/-- An element that is no integer is refused at every place: the pattern of four integers has none. -/
theorem ksWords_of_nonInt_mem {e : List KeyElem} (h : e.length = 4) (hmem : .nonInt ∈ e) :
    ksWords e = .error .invalidKeyElement := by
  unfold ksWords
  split
  next => simp at hmem
  next => rfl
  next hother =>
    obtain ⟨e0, e1, e2, e3, rfl⟩ := List.length_eq_four.mp h
    exact absurd rfl (hother e0 e1 e2 e3)

theorem exists_eq_int_of_ne_nonInt {e : KeyElem} (h : .nonInt ≠ e) : ∃ v, e = .int v := by
  cases e with
  | int v => exact ⟨v, rfl⟩
  | nonInt => exact absurd rfl h

theorem exists_ksWords_eq_ok {e : List KeyElem} (h : e.length = 4) (hints : .nonInt ∉ e) : ∃ k, ksWords e = .ok k := by
  obtain ⟨e0, e1, e2, e3, rfl⟩ := List.length_eq_four.mp h
  simp only [List.mem_cons, List.not_mem_nil, or_false, not_or] at hints
  obtain ⟨h0, h1, h2, h3⟩ := hints
  obtain ⟨v0, rfl⟩ := exists_eq_int_of_ne_nonInt h0
  obtain ⟨v1, rfl⟩ := exists_eq_int_of_ne_nonInt h1
  obtain ⟨v2, rfl⟩ := exists_eq_int_of_ne_nonInt h2
  obtain ⟨v3, rfl⟩ := exists_eq_int_of_ne_nonInt h3
  exact ⟨_, ksWords_ints v0 v1 v2 v3⟩

/-! ## The round count (R105) -/

theorem roundsOf_int_of_pos {v : Int} (h : 1 ≤ v) : roundsOf (.int v) = .ok (BitVec.ofInt 32 v) := if_pos h

theorem roundsOf_of_badRounds {r : RoundsArg} (h : badRounds r) : roundsOf r = .error .invalidRounds := by
  obtain rfl | ⟨v, rfl, hv⟩ := h
  · rfl
  · exact if_neg (by omega)

/-- The port's round counts are below 2^31, so a word holds each as it is. -/
theorem ofInt_toNat_of_pos {v : Int} (hpos : 1 ≤ v) (hmax : v ≤ 2147483647) : ((BitVec.ofInt 32 v).toNat : Int) = v := by
  rw [BitVec.toNat_ofInt]
  omega

/-- Settles O23: the operands `ROUNDS_OF` accepts, and those of `badRounds`. -/
theorem roundsMustBePositive : Obligations.RoundsMustBePositive :=
  ⟨rfl, fun _ hpos hmax => ⟨_, roundsOf_int_of_pos hpos, ofInt_toNat_of_pos hpos hmax⟩,
    fun v hv => roundsOf_of_badRounds (.inr ⟨v, rfl, hv⟩), roundsOf_of_badRounds (.inl rfl)⟩

/-! ## The checks of `NEW` and what follows them (R108) -/

/-- The key's error comes first, whatever the rounds operand. -/
theorem checkNew_of_key_error {key : Except ErrName Key} {e : ErrName} (hkey : key = .error e) (r : RoundsArg) :
    checkNew key r = .error e := by
  simp [checkNew, hkey]

theorem checkNew_of_rounds_error {key : Except ErrName Key} {k : Key} {r : RoundsArg} {e : ErrName} (hkey : key = .ok k)
    (hr : roundsOf r = .error e) : checkNew key r = .error e := by
  simp [checkNew, hkey, hr]

theorem checkNew_of_ok {key : Except ErrName Key} {k : Key} {r : RoundsArg} {n : Word} (hkey : key = .ok k)
    (hr : roundsOf r = .ok n) : checkNew key r = .ok (k, n) := by
  simp [checkNew, hkey, hr]

/-- An answer while no response is pending is all that is offered. -/
theorem State.answer_of_rspOut_eq_nil {s : State} (hout : s.rspOut = []) (op : Opcode) (a : Answer) :
    s.answer op a = { s with ob := a.items, rspOut := responseWords op a } := by
  simp [State.answer, hout]

/-- Where a check fails, `NEW` only answers. -/
theorem finishNew_of_error {key : Except ErrName Key} {r : RoundsArg} {e : ErrName} {s : State} (items : List OpItem)
    (hout : s.rspOut = []) (hcheck : checkNew key r = .error e) :
    finishNew key r (s.loadIB items) =
      .next { s with ib := items, ob := [], rspOut := [statusWord true 3 e.code 0] } := by
  simp only [finishNew, hcheck]
  exact congrArg _ (State.answer_of_rspOut_eq_nil (s := s.loadIB items) hout ..)

/-- Where the checks pass, `NEW` writes `K`, `ROUNDS` and `CFG` and answers success. -/
theorem finishNew_of_ok {key : Except ErrName Key} {r : RoundsArg} {k : Key} {n : Word} {s : State} (items : List OpItem)
    (hout : s.rspOut = []) (hcheck : checkNew key r = .ok (k, n)) :
    finishNew key r (s.loadIB items) =
      .next { s with k := k, rounds := n, cfg := true, ib := items, ob := [], rspOut := [statusWord false 3 0 0] } := by
  simp only [finishNew, hcheck]
  exact congrArg _ (State.answer_of_rspOut_eq_nil (s := (s.loadIB items).writeInstance k n) hout ..)

/-! ## Words with `OP = 3` (30_encoding.md R76, R78) -/

/-- Words that spell no command are answered `IllegalCommand`. -/
theorem deliver_of_error {h : Word} {ws : List Word} {e : Reject} (hd : decode h ws = .error e) (s : State) :
    deliver h ws s = .next (s.answer (opField h) (.err .illegalCommand)) := by
  rw [deliver, hd]
  rfl

/-- The same with `OP = 3` while no response is pending. -/
theorem deliver_new_of_error {h : Word} {ws : List Word} {e : Reject} {s : State} (hout : s.rspOut = [])
    (hop : opField h = 3) (hd : decode h ws = .error e) :
    deliver h ws s = .next { s with ib := s.ib, ob := [], rspOut := [0x83000900] } := by
  rw [deliver_of_error hd, hop]
  exact congrArg _ (State.answer_of_rspOut_eq_nil hout ..)

theorem eq_newBytes_of_decode {h : Word} {ws : List Word} {i : Instr} (hop : opField h = 3) (hkf : kfBit h = false)
    (hd : decode h ws = .ok i) : ∃ key r, i = .newBytes key r := by
  obtain ⟨-, -, hopcode, hops⟩ := decode_eq_ok_iff.mp hd
  have hnew : isNew i = true := (isNew_eq_true_iff i).mpr (hopcode ▸ hop)
  cases i with
  | newBytes key r => exact ⟨key, r, rfl⟩
  | newWords key r => exact absurd (hkf.symm.trans hops.1) (by decide)
  | keysize | blocksize | encrypt | decrypt | encryptBlock | decryptBlock => cases hnew

/-- Settles O25: each outcome of `KS_BYTES` and `ROUNDS_OF` is one of `finishNew`; words that decode with `KF = 0` are
`NEW.BYTES`. -/
theorem newBytesLoadsTheInstanceOrFails : Obligations.NewBytesLoadsTheInstanceOrFails := by
  refine ⟨?success, ?length, ?rounds, ?words⟩
  case success =>
    intro b0 b1 b2 b3 b4 b5 b6 b7 b8 b9 b10 b11 b12 b13 b14 b15 r n s hout hr
    exact ⟨[], (exec_newBytes ..).trans (finishNew_of_ok _ hout (checkNew_of_ok (ksBytes_sixteen ..) hr))⟩
  case length =>
    intro key r s hout hlen
    exact ⟨[], (exec_newBytes ..).trans (finishNew_of_error _ hout (checkNew_of_key_error (ksBytes_of_length_ne hlen) r))⟩
  case rounds =>
    intro key r s hout hlen hr
    obtain ⟨k, hk⟩ := exists_ksBytes_eq_ok hlen
    exact ⟨[], (exec_newBytes ..).trans
      (finishNew_of_error _ hout (checkNew_of_rounds_error hk (roundsOf_of_badRounds hr)))⟩
  case words =>
    intro h ws s hout hop hkf
    rcases hd : decode h ws with e | i
    · exact .inr ⟨s.ib, [], deliver_new_of_error hout hop hd⟩
    · obtain ⟨key, r, rfl⟩ := eq_newBytes_of_decode hop hkf hd
      exact .inl ⟨key, r, rfl⟩

/-- Settles O26: each outcome of `KS_WORDS` and `ROUNDS_OF` is one of `finishNew`; whole frames with `KF = 1` decode exactly
when the reserved bits are zero. -/
theorem newWordsLoadsTheInstanceOrFails : Obligations.NewWordsLoadsTheInstanceOrFails := by
  refine ⟨?success, ?shape, ?element, ?rounds, ?words⟩
  case success =>
    intro v0 v1 v2 v3 r n s hout hr
    exact ⟨[], (exec_newWords ..).trans (finishNew_of_ok _ hout (checkNew_of_ok (ksWords_ints ..) hr))⟩
  case shape =>
    intro key r s hout hlen
    exact ⟨[], (exec_newWords ..).trans (finishNew_of_error _ hout (checkNew_of_key_error (ksWords_of_length_ne hlen) r))⟩
  case element =>
    intro key r s hout hlen hmem
    have hkey : ksWords key = .error .invalidKeyElement := ksWords_of_nonInt_mem hlen hmem
    exact ⟨[], (exec_newWords ..).trans (finishNew_of_error _ hout (checkNew_of_key_error hkey r))⟩
  case rounds =>
    intro key r s hout hlen hints hr
    obtain ⟨k, hk⟩ := exists_ksWords_eq_ok hlen hints
    exact ⟨[], (exec_newWords ..).trans
      (finishNew_of_error _ hout (checkNew_of_rounds_error hk (roundsOf_of_badRounds hr)))⟩
  case words =>
    intro h ws s hout hop hkf hlen
    constructor
    · intro hres
      exact (exists_decode_newWords_iff hlen).mpr ((and_newMask_eq_iff h 3 true).mpr ⟨hres, hop, hkf⟩)
    · intro hres
      rcases hd : decode h ws with e | i
      · exact ⟨s.ib, [], deliver_new_of_error hout hop hd⟩
      · exact absurd (decode_eq_ok_iff.mp hd).1 hres

end Sys2Proof.Machine
end

section
/-! PROOF. The codec's arithmetic (41_block_codec.md R121 to R124), the two transforms round by round (R125, R127), and that
they undo each other on words and on bytes (R131). -/

namespace Sys2Proof.Machine

/-! ## The operations (R121 to R124) -/

theorem add32_toNat (a b : Word) : (add32 a b).toNat = (a.toNat + b.toNat) % 2 ^ 32 := BitVec.toNat_add a b

theorem sub32_toNat (a b : Word) : (sub32 a b).toNat = (a.toNat + 2 ^ 32 - b.toNat) % 2 ^ 32 := by
  have := b.isLt
  rw [sub32, BitVec.toNat_sub]
  omega

theorem mul32_toNat (a : Word) (n : Nat) : (mul32 a n).toNat = (a.toNat * n) % 2 ^ 32 := BitVec.toNat_ofNat ..

theorem shl4_toNat (a : Word) : (shl4 a).toNat = (a.toNat * 16) % 2 ^ 32 := by
  rw [shl4, BitVec.toNat_shiftLeft, Nat.shiftLeft_eq]

theorem shr5_toNat (a : Word) : (shr5 a).toNat = a.toNat / 32 := by
  rw [shr5, BitVec.toNat_ushiftRight, Nat.shiftRight_eq_div_pow]

/-- Settles O10, one operation by one lemma. -/
theorem arithmeticIsModuloTwoToThe32 : Obligations.ArithmeticIsModuloTwoToThe32 := fun a b n =>
  ⟨add32_toNat a b, sub32_toNat a b, mul32_toNat a n, shl4_toNat a, shr5_toNat a, fun _ => BitVec.getLsbD_xor⟩

/-- Settles O11: the three sums are those of the definition; the worked example is evaluated. -/
theorem mixIsTheExclusiveOrOfThreeSums : Obligations.MixIsTheExclusiveOrOfThreeSums :=
  ⟨fun _ _ _ _ => rfl, by decide⟩

/-- Settles O12: `encRound` binds the new `y` before it updates `z`. -/
theorem forwardRoundUsesTheNewY : Obligations.ForwardRoundUsesTheNewY := fun _ _ _ _ _ _ _ => rfl

/-! ## The rounds undo each other (R124, R126) -/

theorem decRound_encRound (b : Block) (sum : Word) (k : Key) : decRound (encRound b sum k) sum k = b := by
  simp [decRound, encRound]

theorem encRound_decRound (b : Block) (sum : Word) (k : Key) : encRound (decRound b sum k) sum k = b := by
  simp [decRound, encRound]

/-! ## The transforms, one round more (R125, R127) -/

/-- The forward loop from `MUL(DELTA, m)`: its last round uses `MUL(DELTA, m + n + 1)`. -/
theorem encLoop_succ_last (k : Key) (m n : Nat) (b : Block) :
    encLoop k (n + 1) (mul32 Config.delta m) b =
      encRound (encLoop k n (mul32 Config.delta m) b) (mul32 Config.delta (m + n + 1)) k := by
  induction n generalizing m b with
  | zero => simp [encLoop_succ, mul32_succ]
  | succ n ih =>
    rw [encLoop_succ, ← mul32_succ, ih, encLoop_succ, ← mul32_succ, Nat.add_assoc m 1 n,
      Nat.add_comm 1 n]

/-- The sum goes down by one round's worth with each round of `n`. -/
theorem mul32_sub_succ (a : Word) {n i : Nat} (hi : i < n) : mul32 a (n - (i + 1)) = sub32 (mul32 a (n - i)) a := by
  have hleft : n - i = n - (i + 1) + 1 := by omega
  rw [hleft, sub32_mul32_succ]

/-- The inverse loop from `MUL(DELTA, n)`: the round after `i` rounds uses `MUL(DELTA, n - i)`. -/
theorem decLoop_succ_last (k : Key) {n i : Nat} (hi : i < n) (b : Block) :
    decLoop k (i + 1) (mul32 Config.delta n) b =
      decRound (decLoop k i (mul32 Config.delta n) b) (mul32 Config.delta (n - i)) k := by
  induction i generalizing n b with
  | zero => rfl
  | succ i ih =>
    obtain ⟨n, rfl⟩ : ∃ m, n = m + 1 := ⟨n - 1, by omega⟩
    rw [decLoop_succ, sub32_mul32_succ, ih (Nat.lt_of_succ_lt_succ hi), decLoop_succ, sub32_mul32_succ,
      Nat.add_sub_add_right]

/-- One round more of `TEA_ENC` comes last. -/
theorem teaEnc_succ (b : Block) (k : Key) (n : Nat) :
    teaEnc b k (n + 1) = encRound (teaEnc b k n) (mul32 Config.delta (n + 1)) k := by
  simpa [teaEnc] using encLoop_succ_last k 0 n b

/-- One round more of `TEA_DEC` comes first. -/
theorem teaDec_succ (b : Block) (k : Key) (n : Nat) :
    teaDec b k (n + 1) = teaDec (decRound b (mul32 Config.delta (n + 1)) k) k n := by
  rw [teaDec, decLoop_succ, sub32_mul32_succ]
  rfl

/-! ## The transforms undo each other (R131) -/

theorem teaDec_teaEnc (b : Block) (k : Key) (n : Nat) : teaDec (teaEnc b k n) k n = b := by
  induction n with
  | zero => rfl
  | succ n ih => rw [teaEnc_succ, teaDec_succ, decRound_encRound, ih]

theorem teaEnc_teaDec (b : Block) (k : Key) (n : Nat) : teaEnc (teaDec b k n) k n = b := by
  induction n generalizing b with
  | zero => rfl
  | succ n ih => rw [teaDec_succ, teaEnc_succ, ih, encRound_decRound]

/-! ## The byte form of a block (20_memory.md R53) -/

/-- The eight bytes of a block, the first word's first. -/
def Block.bytes (b : Block) : List Byte := bytes32 b.y ++ bytes32 b.z

/-- They are the bytes `PACK` writes. -/
theorem pack_eq_bytes (b : Block) : pack b = b.bytes.map .byte := pack_eq b

@[simp] theorem Block.bytes_length (b : Block) : b.bytes.length = 8 := rfl

theorem unpack_bytes (b : Block) : unpack b.bytes = [b.y, b.z] := by
  rw [Block.bytes, bytes32_eq, bytes32_eq]
  refine (unpack_eight ..).trans ?_
  rw [be32_bytes, be32_bytes]

/-- Every eight bytes are those of a block. -/
theorem exists_eq_bytes {b : List Byte} (h : b.length = 8) : ∃ blk : Block, b = blk.bytes := by
  obtain ⟨b0, b1, b2, b3, b4, b5, b6, b7, rfl⟩ := eight_of_length h
  exact ⟨⟨be32 b0 b1 b2 b3, be32 b4 b5 b6 b7⟩, by simp [Block.bytes, bytes32_be32]⟩

/-- Where `CFG = 1`, a byte-form transform of a block's bytes answers the bytes of the transformed block. -/
theorem answerBytes_bytes (d : Direction) (b : Block) {c : Cipher} (hc : c.cfg = true) :
    answerBytes d b.bytes c = .ok ((d.transform b c.k c.rounds.toNat).bytes.map .byte) := by
  simp [answerBytes, hc, Config.blockSize, unpack_bytes, codecCheck_two, pack_eq_bytes]

/-- Settles O17: each round undoes its counterpart, the last first; on bytes the answer is the transformed block's bytes. -/
theorem decryptUndoesEncrypt : Obligations.DecryptUndoesEncrypt := by
  refine ⟨fun b k n => ⟨teaDec_teaEnc b k n, teaEnc_teaDec b k n⟩, fun c b hc hb => ?_⟩
  obtain ⟨blk, rfl⟩ := exists_eq_bytes hb
  refine ⟨⟨_, Block.bytes_length _, answerBytes_bytes .forward blk hc, ?_⟩,
    ⟨_, Block.bytes_length _, answerBytes_bytes .inverse blk hc, ?_⟩⟩
  · refine (answerBytes_bytes .inverse _ hc).trans ?_
    rw [Direction.transform_forward, Direction.transform_inverse, teaDec_teaEnc]
  · refine (answerBytes_bytes .forward _ hc).trans ?_
    rw [Direction.transform_forward, Direction.transform_inverse, teaEnc_teaDec]

/-! ## The transforms as sequences (R125, R127) -/

/-- Settles O14: the blocks are those of `TEA_ENC` after `i` rounds, the sums the multiples of `DELTA`. -/
theorem forwardTransformIsItsRecurrence : Obligations.ForwardTransformIsItsRecurrence := by
  refine ⟨fun b k n => ⟨teaEnc b k, mul32 Config.delta, rfl, rfl, fun i _ => ?_, rfl⟩, by decide, by decide⟩
  exact ⟨mul32_succ _ i, rfl, teaEnc_succ b k i⟩

/-- Settles O15: the blocks are those of the inverse loop after `i` rounds, the sums the multiples of `DELTA` downwards. -/
theorem inverseTransformIsItsSequence : Obligations.InverseTransformIsItsSequence := by
  refine ⟨fun b k n => ⟨fun i => decLoop k i (mul32 Config.delta n) b, fun i => mul32 Config.delta (n - i), rfl, rfl,
    fun i hi => ⟨decLoop_succ_last k hi b, mul32_sub_succ _ hi, rfl⟩, congrArg _ (Nat.sub_self n), rfl⟩,
    by decide, by decide⟩

end Sys2Proof.Machine
end

section
/-! PROOF. The sequencer view of a transform (41_block_codec.md R133 to R136) and the two word-form transforms, from their
checks to their answers (R138, R139). -/

namespace Sys2Proof.Machine

/-! ## The start step (R133) -/

/-- Where `CFG = 1`, two words start their transform. -/
theorem transformWords_two (d : Direction) (op : Opcode) (y z : Word) {s : State} (hc : s.cfg = true) :
    transformWords d op [y, z] s = .next ((s.loadIB [.word y, .word z]).startStep d op ⟨y, z⟩) := by
  have hview : (s.loadIB [.word y, .word z]).ibWords = [y, z] := State.ibWords_loadIB s [y, z]
  simp [transformWords, hc, hview]

/-- Where `CFG = 1`, eight bytes start the transform of their two big-endian words. -/
theorem transformBytes_eight (d : Direction) (op : Opcode) (b0 b1 b2 b3 b4 b5 b6 b7 : Byte) {s : State}
    (hc : s.cfg = true) :
    transformBytes d op [b0, b1, b2, b3, b4, b5, b6, b7] s =
      .next ((s.loadIB ([b0, b1, b2, b3, b4, b5, b6, b7].map .byte)).startStep d op
        ⟨be32 b0 b1 b2 b3, be32 b4 b5 b6 b7⟩) := by
  have hview := State.ibBytes_loadIB s [b0, b1, b2, b3, b4, b5, b6, b7]
  simp only [transformBytes, State.loadIB_cfg, hc, if_true, hview, unpack_eight, enterCodec_two]
  rfl

/-- A command that fails only answers. -/
theorem exec_of_fails {i : Instr} {s : State} (h : Fails i s.cipher) :
    ∃ e, exec i s = .next ((s.loadIB (operandItems i)).answer i.opcode (.err e)) := by
  obtain ⟨e, he⟩ := h
  rcases exec_cases i s with ⟨a, hexec, htr, -⟩ | ⟨k, n, -, -, htr⟩ | ⟨b, -, -, -, htr⟩ <;> rw [htr] at he
  · cases he
    exact ⟨e, hexec⟩
  · cases he
  · cases he

/-- Settles O34: where `CFG = 1` two words or eight bytes pass the checks; a command that fails only answers, which leaves
the working registers and the phase. -/
theorem transformStartsOnlyAfterItsChecks : Obligations.TransformStartsOnlyAfterItsChecks := by
  refine ⟨?bytes, ?words, ?fails⟩
  case bytes =>
    intro b0 b1 b2 b3 b4 b5 b6 b7 s hc
    exact ⟨transformBytes_eight .forward 4 b0 b1 b2 b3 b4 b5 b6 b7 hc,
      transformBytes_eight .inverse 5 b0 b1 b2 b3 b4 b5 b6 b7 hc⟩
  case words =>
    intro y z s hc
    exact ⟨transformWords_two .forward 6 y z hc, transformWords_two .inverse 7 y z hc⟩
  case fails =>
    intro i s t hfail hnext
    obtain ⟨e, hexec⟩ := exec_of_fails hfail
    cases hexec.symm.trans hnext
    exact ⟨rfl, rfl, rfl, rfl, rfl, rfl⟩

/-! ## The rounds (R134, R135) -/

/-- Settles O35: while `RC < ROUNDS` a running step is the round step of its direction. -/
theorem runningStepIsOneRound : Obligations.RunningStepIsOneRound :=
  ⟨fun _ hrst hph hlt => step_round (d := .forward) hrst hph hlt,
    fun _ hrst hph hlt => step_round (d := .inverse) hrst hph hlt⟩

/-! ## The completion (R136) -/

theorem resultItems_bytes {opl : Opcode} (h : opl = 4 ∨ opl = 5) (b : Block) : resultItems opl b = some (pack b) := if_pos h

theorem resultItems_words {opl : Opcode} (h : opl = 6 ∨ opl = 7) (b : Block) :
    resultItems opl b = some (wordItems b) := by
  rcases h with rfl | rfl <;> rfl

/-- A phase that is not IDLE runs a direction. -/
theorem exists_eq_phase {p : Phase} (h : p ≠ .idle) : ∃ d : Direction, p = d.phase := by
  cases p with
  | idle => exact absurd rfl h
  | runEnc => exact ⟨.forward, rfl⟩
  | runDec => exact ⟨.inverse, rfl⟩

/-- The response goes behind the words still offered. -/
theorem completed_rspOut (s : State) (items : List ResItem) :
    (completed s items).rspOut = s.rspOut ++ responseWords s.opl (.ok items) := rfl

/-- Settles O36: the completion step answers the items of the form `OPL` names. -/
theorem completionAnswersFromTheWorkingBlock : Obligations.CompletionAnswersFromTheWorkingBlock := by
  intro s hrst hph hout hrc
  obtain ⟨d, hd⟩ := exists_eq_phase hph
  constructor
  · intro hopl
    refine ⟨_, step_completes hrst hd hrc (resultItems_bytes hopl s.block), rfl, completed_cipher .., pack_eq s.block, ?_⟩
    rw [completed_rspOut, hout, responseWords_pack, List.nil_append]
    rfl
  · intro hopl
    refine ⟨_, step_completes hrst hd hrc (resultItems_words hopl s.block), rfl, completed_cipher .., rfl, ?_⟩
    rw [completed_rspOut, hout, responseWords_wordItems, List.nil_append]
    rfl

/-! ## A transform from its command to its answer -/

theorem State.withWorking_cipher (s : State) (b : Block) (sum rc : Word) : (s.withWorking b sum rc).cipher = s.cipher := rfl

/-- A transform that starts answers the transformed block after `ROUNDS + 1` steps, and leaves the Cipher. -/
theorem started_transform_answers {i : Instr} {s : State} (b : Block) (h : isTransform i = true) (hrst : s.rst = false)
    (hout : s.rspOut = []) :
    ∃ u, steps (s.rounds.toNat + 1) ((s.loadIB (operandItems i)).startStep (directionOf i) i.opcode b) = .next u ∧
      u.rspOut = responseWords i.opcode (.ok (itemsOf i ((directionOf i).transform b s.k s.rounds.toNat))) ∧
      u.ob = itemsOf i ((directionOf i).transform b s.k s.rounds.toNat) ∧ u.ph = .idle ∧ u.cipher = s.cipher := by
  obtain ⟨sum, rc, hrun⟩ := steps_transform (s := s.loadIB (operandItems i)) b h hrst
  rw [State.loadIB_rounds, State.loadIB_k] at hrun
  refine ⟨_, hrun, ?_, rfl, rfl, ?_⟩
  · rw [completed_rspOut]
    exact congrArg (· ++ _) hout
  · rw [completed_cipher, State.withWorking_cipher, State.startStep_cipher, State.loadIB_cipher]

/-- An error answered while no response is pending: the command's items in `IB`, and its status word offered. -/
theorem loadIB_answer_err {s : State} (hout : s.rspOut = []) (items : List OpItem) (op : Opcode) (e : ErrName) :
    (s.loadIB items).answer op (.err e) = { s with ib := items, ob := [], rspOut := [statusWord true op e.code 0] } :=
  State.answer_of_rspOut_eq_nil (s := s.loadIB items) hout op (.err e)

/-- Where `CFG = 0` a word-form transform answers NotConfigured, whatever its words. -/
theorem transformWords_notConfigured (d : Direction) (op : Opcode) (w : List Word) {s : State} (hout : s.rspOut = [])
    (hc : s.cfg = false) :
    transformWords d op w s =
      .next { s with ib := w.map .word, ob := [], rspOut := [statusWord true op ErrName.notConfigured.code 0] } := by
  rw [← loadIB_answer_err hout]
  simp [transformWords, hc]

/-- Where `CFG = 1`, another count than two is answered MalformedBlock. -/
theorem transformWords_malformed (d : Direction) (op : Opcode) {w : List Word} {s : State} (hout : s.rspOut = [])
    (hc : s.cfg = true) (hw : w.length ≠ 2) :
    transformWords d op w s =
      .next { s with ib := w.map .word, ob := [], rspOut := [statusWord true op ErrName.malformedBlock.code 0] } := by
  rw [← loadIB_answer_err hout]
  simp [transformWords, hc, enterCodec_other d op _ hw]

/-! ## Words with a transform's `OP` (30_encoding.md R76, R78) -/

/-- Words whose operation code is that of one command alone spell this command, or are answered IllegalCommand. -/
theorem decode_or_illegal {α : Type} {mk : α → Instr} {op : Opcode} (honly : ∀ i : Instr, i.opcode = op → ∃ a, i = mk a)
    {h : Word} {s : State} (ws : List Word) (hout : s.rspOut = []) (hop : opField h = op) :
    (∃ a, decode h ws = .ok (mk a)) ∨ ∃ ib ob,
      deliver h ws s =
        .next { s with ib := ib, ob := ob, rspOut := [statusWord true op ErrName.illegalCommand.code 0] } := by
  rcases hd : decode h ws with e | i
  · have hanswer := State.answer_of_rspOut_eq_nil hout op (.err .illegalCommand)
    exact .inr ⟨s.ib, [], by rw [deliver_of_error hd, hop, hanswer]; rfl⟩
  · obtain ⟨-, -, hcode, -⟩ := decode_eq_ok_iff.mp hd
    obtain ⟨a, rfl⟩ := honly i (hcode.symm.trans hop)
    exact .inl ⟨a, rfl⟩

theorem eq_encryptBlock_of_opcode (i : Instr) (h : i.opcode = 6) : ∃ w, i = .encryptBlock w := by
  cases i with
  | encryptBlock w => exact ⟨w, rfl⟩
  | _ => cases h

theorem eq_decryptBlock_of_opcode (i : Instr) (h : i.opcode = 7) : ∃ w, i = .decryptBlock w := by
  cases i with
  | decryptBlock w => exact ⟨w, rfl⟩
  | _ => cases h

/-! ## ENCRYPT_BLOCK and DECRYPT_BLOCK (R138, R139) -/

/-- Settles O29: the start step, the rounds and the completion of ENCRYPT_BLOCK; its two errors; and words with `OP = 6`. -/
theorem encryptBlockAnswersTheForwardTransform : Obligations.EncryptBlockAnswersTheForwardTransform := by
  refine ⟨?success, ?unconfigured, ?count, ?words⟩
  case success =>
    intro y z s hout hc hrst
    obtain ⟨u, hrun, hrsp, hob, hidle, hcipher⟩ :=
      started_transform_answers (i := .encryptBlock [y, z]) ⟨y, z⟩ rfl hrst hout
    obtain ⟨-, -, -, -, -, hstatus, -⟩ := statusWord_success
    exact ⟨_, u, transformWords_two .forward 6 y z hc, rfl, hrun, hstatus ▸ hrsp, hob, hidle, hcipher⟩
  case unconfigured =>
    intro w s hout hc
    exact ⟨[], transformWords_notConfigured .forward 6 w hout hc⟩
  case count =>
    intro w s hout hc hw
    exact ⟨[], transformWords_malformed .forward 6 hout hc hw⟩
  case words =>
    intro h ws s hout hop
    exact decode_or_illegal eq_encryptBlock_of_opcode ws hout hop

/-- Settles O30: the start step, the rounds and the completion of DECRYPT_BLOCK; its two errors; and words with `OP = 7`. -/
theorem decryptBlockAnswersTheInverseTransform : Obligations.DecryptBlockAnswersTheInverseTransform := by
  refine ⟨?success, ?unconfigured, ?count, ?words⟩
  case success =>
    intro y z s hout hc hrst
    obtain ⟨u, hrun, hrsp, hob, hidle, hcipher⟩ :=
      started_transform_answers (i := .decryptBlock [y, z]) ⟨y, z⟩ rfl hrst hout
    obtain ⟨-, -, -, -, -, -, hstatus⟩ := statusWord_success
    exact ⟨_, u, transformWords_two .inverse 7 y z hc, rfl, hrun, hstatus ▸ hrsp, hob, hidle, hcipher⟩
  case unconfigured =>
    intro w s hout hc
    exact ⟨[], transformWords_notConfigured .inverse 7 w hout hc⟩
  case count =>
    intro w s hout hc hw
    exact ⟨[], transformWords_malformed .inverse 7 hout hc hw⟩
  case words =>
    intro h ws s hout hop
    exact decode_or_illegal eq_decryptBlock_of_opcode ws hout hop

end Sys2Proof.Machine
end

section
/-! PROOF. The Cipher facade (42_cipher_facade.md): the two size queries (R150, R151) and the two byte-form transforms, from
their checks to their answers (R152, R153). -/

namespace Sys2Proof.Machine

/-! ## The size queries (R150, R151) -/

/-- While no response is pending a size query offers its size, and writes no register. -/
theorem sizeQuery_of_rspOut_eq_nil (op : Opcode) (size : Nat) {s : State} (hout : s.rspOut = []) :
    sizeQuery op size s =
      .next { s with
        ib := []
        ob := [.word (BitVec.ofNat 32 size)]
        rspOut := [statusWord false op 0 1, BitVec.ofNat 32 size] } :=
  congrArg _ (State.answer_of_rspOut_eq_nil (s := s.loadIB []) hout op (.ok [.word (BitVec.ofNat 32 size)]))

theorem eq_keysize_of_opcode (i : Instr) (h : i.opcode = 1) : i = .keysize := by
  cases i with
  | keysize => rfl
  | _ => cases h

theorem eq_blocksize_of_opcode (i : Instr) (h : i.opcode = 2) : i = .blocksize := by
  cases i with
  | blocksize => rfl
  | _ => cases h

/-- The header of a command without operands has no bit set outside `OP`. -/
theorem header_of_decode_query {i : Instr} {h : Word} {ws : List Word}
    (hops : GivesOperands h ws i → newOnlySet h = false ∧ lenField h = 0) (hd : decode h ws = .ok i) :
    h = mkHeader i.opcode false false false 0 := by
  obtain ⟨hres, -, hop, hgives⟩ := decode_eq_ok_iff.mp hd
  obtain ⟨hset, hlen⟩ := hops hgives
  have hmask : h &&& 0xFFFFFFFF = h := BitVec.and_allOnes
  exact hmask.symm.trans ((and_queryMask_eq_iff h i.opcode).mpr ⟨hres, hop, hset, hlen⟩)

/-- A query's `OP` under another header is answered IllegalCommand. -/
theorem deliver_query_illegal {i : Instr} {h : Word} {ws : List Word} {s : State}
    (honly : ∀ j : Instr, j.opcode = i.opcode → j = i)
    (hops : GivesOperands h ws i → newOnlySet h = false ∧ lenField h = 0) (hout : s.rspOut = [])
    (hop : opField h = i.opcode) (hne : h ≠ mkHeader i.opcode false false false 0) :
    ∃ ib ob, deliver h ws s =
      .next { s with ib := ib, ob := ob, rspOut := [statusWord true i.opcode ErrName.illegalCommand.code 0] } := by
  rcases decode_or_illegal (mk := fun _ : Unit => i) (fun j hj => ⟨(), honly j hj⟩) ws hout hop with ⟨-, hd⟩ | hanswer
  · exact absurd (header_of_decode_query hops hd) hne
  · exact hanswer

/-- Settles O24: the answers of the two queries; the match words of their rows decode to them, and no other header with
their `OP` does. -/
theorem sizeQueriesAnswerTheirConstants : Obligations.SizeQueriesAnswerTheirConstants := by
  refine ⟨?keysize, ?blocksize, by decide, by decide, ?keysizeHeader, ?blocksizeHeader⟩
  case keysize => exact fun s hout => sizeQuery_of_rspOut_eq_nil 1 16 hout
  case blocksize => exact fun s hout => sizeQuery_of_rspOut_eq_nil 2 8 hout
  case keysizeHeader =>
    intro h ws s hout hop hne
    exact deliver_query_illegal (i := .keysize) eq_keysize_of_opcode id hout hop hne
  case blocksizeHeader =>
    intro h ws s hout hop hne
    exact deliver_query_illegal (i := .blocksize) eq_blocksize_of_opcode id hout hop hne

/-! ## The byte-form transforms (R152 to R154) -/

/-- Where `CFG = 0` a byte-form transform answers NotConfigured, whatever its bytes. -/
theorem transformBytes_notConfigured (d : Direction) (op : Opcode) (b : List Byte) {s : State} (hout : s.rspOut = [])
    (hc : s.cfg = false) :
    transformBytes d op b s =
      .next { s with ib := b.map .byte, ob := [], rspOut := [statusWord true op ErrName.notConfigured.code 0] } := by
  rw [← loadIB_answer_err hout]
  simp [transformBytes, hc]

/-- Where `CFG = 1`, another length than eight is answered InvalidBlockLength. -/
theorem transformBytes_invalidBlockLength (d : Direction) (op : Opcode) {b : List Byte} {s : State} (hout : s.rspOut = [])
    (hc : s.cfg = true) (hb : b.length ≠ 8) :
    transformBytes d op b s =
      .next { s with ib := b.map .byte, ob := [], rspOut := [statusWord true op ErrName.invalidBlockLength.code 0] } := by
  rw [← loadIB_answer_err hout]
  simp [transformBytes, hc, hb, Config.blockSize]

/-- A byte-form transform that starts answers the bytes of the transformed block after `ROUNDS + 1` steps, and leaves the
Cipher. -/
theorem started_byteForm_answers {i : Instr} {s : State} (b : Block) (h : isTransform i = true)
    (hform : ∀ c, itemsOf i c = pack c) (hrst : s.rst = false) (hout : s.rspOut = []) :
    ∃ u, steps (s.rounds.toNat + 1) ((s.loadIB (operandItems i)).startStep (directionOf i) i.opcode b) = .next u ∧
      u.rspOut = statusWord false i.opcode 0 8 ::
        ((directionOf i).transform b s.k s.rounds.toNat).bytes.map byteWord ∧
      u.ob = ((directionOf i).transform b s.k s.rounds.toNat).bytes.map .byte ∧ u.ph = .idle ∧ u.cipher = s.cipher := by
  obtain ⟨u, hrun, hrsp, hob, hidle, hcipher⟩ := started_transform_answers b h hrst hout
  rw [hform] at hrsp hob
  exact ⟨u, hrun, hrsp.trans (responseWords_pack ..), hob.trans (pack_eq_bytes _), hidle, hcipher⟩

theorem eq_encrypt_of_opcode (i : Instr) (h : i.opcode = 4) : ∃ b, i = .encrypt b := by
  cases i with
  | encrypt b => exact ⟨b, rfl⟩
  | _ => cases h

theorem eq_decrypt_of_opcode (i : Instr) (h : i.opcode = 5) : ∃ b, i = .decrypt b := by
  cases i with
  | decrypt b => exact ⟨b, rfl⟩
  | _ => cases h

/-- Settles O27: the start step, the rounds and the completion of ENCRYPT; its two errors; and words with `OP = 4`. -/
theorem encryptAnswersTheForwardTransform : Obligations.EncryptAnswersTheForwardTransform := by
  refine ⟨?success, ?unconfigured, ?length, ?words⟩
  case success =>
    intro b0 b1 b2 b3 b4 b5 b6 b7 s hout hc hrst
    obtain ⟨u, hrun, hrsp, hob, hidle, hcipher⟩ :=
      started_byteForm_answers (i := .encrypt [b0, b1, b2, b3, b4, b5, b6, b7]) ⟨be32 b0 b1 b2 b3, be32 b4 b5 b6 b7⟩ rfl
        (fun _ => rfl) hrst hout
    obtain ⟨-, -, -, hstatus, -⟩ := statusWord_success
    exact ⟨_, u, transformBytes_eight .forward 4 b0 b1 b2 b3 b4 b5 b6 b7 hc, rfl, hrun, hstatus ▸ hrsp, hob, hidle, hcipher⟩
  case unconfigured =>
    intro b s hout hc
    exact ⟨[], transformBytes_notConfigured .forward 4 b hout hc⟩
  case length =>
    intro b s hout hc hb
    exact ⟨[], transformBytes_invalidBlockLength .forward 4 hout hc hb⟩
  case words =>
    intro h ws s hout hop
    exact decode_or_illegal eq_encrypt_of_opcode ws hout hop

/-- Settles O28: the start step, the rounds and the completion of DECRYPT; its two errors; and words with `OP = 5`. -/
theorem decryptAnswersTheInverseTransform : Obligations.DecryptAnswersTheInverseTransform := by
  refine ⟨?success, ?unconfigured, ?length, ?words⟩
  case success =>
    intro b0 b1 b2 b3 b4 b5 b6 b7 s hout hc hrst
    obtain ⟨u, hrun, hrsp, hob, hidle, hcipher⟩ :=
      started_byteForm_answers (i := .decrypt [b0, b1, b2, b3, b4, b5, b6, b7]) ⟨be32 b0 b1 b2 b3, be32 b4 b5 b6 b7⟩ rfl
        (fun _ => rfl) hrst hout
    obtain ⟨-, -, -, -, hstatus, -⟩ := statusWord_success
    exact ⟨_, u, transformBytes_eight .inverse 5 b0 b1 b2 b3 b4 b5 b6 b7 hc, rfl, hrun, hstatus ▸ hrsp, hob, hidle, hcipher⟩
  case unconfigured =>
    intro b s hout hc
    exact ⟨[], transformBytes_notConfigured .inverse 5 b hout hc⟩
  case length =>
    intro b s hout hc hb
    exact ⟨[], transformBytes_invalidBlockLength .inverse 5 hout hc hb⟩
  case words =>
    intro h ws s hout hop
    exact decode_or_illegal eq_decrypt_of_opcode ws hout hop

end Sys2Proof.Machine
end

section
/-! PROOF. The errors at the transaction level (60_exceptions.md R174): for each check of a command, the answer where it is
the first that fails. -/

namespace Sys2Proof.Machine

/-! ## Decoding, the first check -/

theorem transactFrame_of_error {h : Word} {ws : List Word} {e : Reject} (hd : decode h ws = .error e) (c : Cipher) :
    transactFrame h ws c = (c, [statusWord true (opField h) 9 0]) := by
  rw [transactFrame, hd]
  rfl

/-! ## The transforms: the instance, then the count -/

theorem answerBytes_notConfigured (d : Direction) (b : List Byte) {c : Cipher} (hc : c.cfg = false) :
    answerBytes d b c = .err .notConfigured := by
  simp [answerBytes, hc]

theorem answerBytes_invalidBlockLength (d : Direction) {b : List Byte} {c : Cipher} (hc : c.cfg = true)
    (hb : b.length ≠ 8) : answerBytes d b c = .err .invalidBlockLength := by
  simp [answerBytes, hc, hb, Config.blockSize]

theorem answerWords_notConfigured (d : Direction) (w : List Word) {c : Cipher} (hc : c.cfg = false) :
    answerWords d w c = .err .notConfigured := by
  simp [answerWords, hc]

theorem answerWords_malformedBlock (d : Direction) {w : List Word} {c : Cipher} (hc : c.cfg = true)
    (hw : w.length ≠ 2) : answerWords d w c = .err .malformedBlock := by
  simp [answerWords, hc, codecCheck_other _ hw]

/-- Without an instance every transform answers NotConfigured, whatever its operand. -/
theorem transact_notConfigured {i : Instr} {c : Cipher} (h : isTransform i = true) (hc : c.cfg = false) :
    (transact i c).2 = .err .notConfigured := by
  cases i with
  | keysize | blocksize | newBytes | newWords => cases h
  | encrypt b => exact answerBytes_notConfigured .forward b hc
  | decrypt b => exact answerBytes_notConfigured .inverse b hc
  | encryptBlock w => exact answerWords_notConfigured .forward w hc
  | decryptBlock w => exact answerWords_notConfigured .inverse w hc

/-! ## NEW: the key, then the rounds -/

/-- `NEW` answers the error of its checks. -/
theorem transactNew_of_error {key : Except ErrName Key} {r : RoundsArg} {e : ErrName} (hcheck : checkNew key r = .error e)
    (c : Cipher) : (transactNew key r c).2 = .err e := by
  simp [transactNew, hcheck]

/-- A key that is refused is answered with its own error, whatever the rounds operand. -/
theorem transactNew_of_key_error {key : Except ErrName Key} {e : ErrName} (hkey : key = .error e) (r : RoundsArg)
    (c : Cipher) : (transactNew key r c).2 = .err e :=
  transactNew_of_error (checkNew_of_key_error hkey r) c

/-- Behind a key that is accepted, a bad rounds operand is answered InvalidRounds. -/
theorem transactNew_of_badRounds {key : Except ErrName Key} {r : RoundsArg} (hkey : ∃ k, key = .ok k) (hr : badRounds r)
    (c : Cipher) : (transactNew key r c).2 = .err .invalidRounds := by
  obtain ⟨k, hk⟩ := hkey
  exact transactNew_of_error (checkNew_of_rounds_error hk (roundsOf_of_badRounds hr)) c

/-- Settles O40: decoding, then the instance, then the operand's count, then the key's elements, then the rounds; each check
decides where those before it pass. -/
theorem checksAreMadeInOrder : Obligations.ChecksAreMadeInOrder := by
  refine ⟨?illegal, fun i c => transact_notConfigured, ?bytes, ?words, ?newBytes, ?newWords⟩
  case illegal =>
    rintro h ws c ⟨e, hd⟩
    exact transactFrame_of_error hd c
  case bytes =>
    intro b c hc hb
    exact ⟨answerBytes_invalidBlockLength .forward hc hb, answerBytes_invalidBlockLength .inverse hc hb⟩
  case words =>
    intro w c hc hw
    exact ⟨answerWords_malformedBlock .forward hc hw, answerWords_malformedBlock .inverse hc hw⟩
  case newBytes =>
    intro key r c
    exact ⟨fun hlen => transactNew_of_key_error (ksBytes_of_length_ne hlen) r c,
      fun hlen hr => transactNew_of_badRounds (exists_ksBytes_eq_ok hlen) hr c⟩
  case newWords =>
    intro key r c
    exact ⟨fun hlen => transactNew_of_key_error (ksWords_of_length_ne hlen) r c,
      fun hlen hmem => transactNew_of_key_error (ksWords_of_nonInt_mem hlen hmem) r c,
      fun hlen hints hr => transactNew_of_badRounds (exists_ksWords_eq_ok hlen hints) hr c⟩

end Sys2Proof.Machine
end

section
/-! PROOF. Reset at any time, and that nothing else clears `CFG` (70_reset_and_hazards.md R200). -/

namespace Sys2Proof.Machine

/-- After a reset event the block is at a header boundary with nothing running and nothing to answer. -/
@[simp] theorem State.resetEvent_busy (s : State) : s.resetEvent.busy = false := by simp [State.busy_eq_false_iff]

/-- `NEW.*` clears no `CFG`: where its checks fail the Cipher stays, and else it sets `CFG`. -/
theorem transactNew_keeps_cfg (key : Except ErrName Key) (r : RoundsArg) {c : Cipher} (hc : c.cfg = true) :
    (transactNew key r c).1.cfg = true := by
  rcases h : checkNew key r with e | ⟨k, n⟩
  · simp [transactNew, h, hc]
  · simp [transactNew, h]

/-- No command clears `CFG`. -/
theorem transact_keeps_cfg (i : Instr) {c : Cipher} (hc : c.cfg = true) : (transact i c).1.cfg = true := by
  cases i with
  | newBytes key r => exact transactNew_keeps_cfg (ksBytes key) r hc
  | newWords key r => exact transactNew_keeps_cfg (ksWords key) r hc
  | keysize | blocksize | encrypt | decrypt | encryptBlock | decryptBlock => exact hc

/-- A step under no reset leaves the Cipher or makes a command's transaction, so it does not clear `CFG`. -/
theorem step_keeps_cfg {s t : State} (hrst : s.rst = false) (h : step s = .next t) (hc : s.cfg = true) : t.cfg = true := by
  have hkeep : t.cipher.cfg = true := by
    rcases step_next_cipher hrst h with hsame | ⟨-, w, rest, i, -, -, ht⟩
    · rw [hsame]
      exact hc
    · rw [ht]
      exact transact_keeps_cfg i hc
  exact hkeep

/-- Settles O6: a step under reset is the reset event, whatever the state; a step under no reset keeps a `CFG` that is 1. -/
theorem resetAbandonsWhateverIsInFlight : Obligations.ResetAbandonsWhateverIsInFlight := by
  refine ⟨fun s hrst => ⟨s.resetEvent, step_reset hrst, State.resetEvent_cfg s, State.resetEvent_ph s, State.resetEvent_rx s,
    State.resetEvent_rspOut s, State.resetEvent_busy s⟩, fun s t h hset hclear => ?_⟩
  by_contra hrst
  have hkept := step_keeps_cfg (Bool.eq_false_of_not_eq_true hrst) h hset
  simp [hkept] at hclear

end Sys2Proof.Machine
end

section
/-! PROOF. The encoding both ways (30_encoding.md R71 to R78): what the encoder sends decodes to the command, what decodes is
well formed, what is illegal and what is ignored. -/

namespace Sys2Proof.Machine

/-! ## What decodes is well formed (R76, R85) -/

theorem takeRounds_wf {h : Word} {ws items : List Word} {r : RoundsArg} (ht : takeRounds h ws = .ok (r, items)) :
    r.wf = true := by
  rcases takeRounds_cases h ws with ⟨-, hr⟩ | ⟨v, rest, -, -, hr⟩ | ⟨-, -, hr⟩ <;> rw [hr] at ht <;> cases ht
  · rfl
  · have hlow := v.le_toInt
    have hhigh := v.toInt_lt
    split
    · rw [RoundsArg.wf_int_iff]
      omega
    · rfl

/-- Behind `RVAL` there are `LEN` item words, and `EMASK` where `KF = 1`. -/
theorem itemWords_length {h : Word} {ws : List Word} (hlen : ws.length = followCount h) :
    (itemWords h ws).length = (kfBit h).toNat + lenField h := by
  rw [itemWords, List.length_drop, hlen, followCount]
  omega

theorem followCount_of_newOnlySet_eq_false {h : Word} (hset : newOnlySet h = false) : followCount h = lenField h := by
  obtain ⟨hkf, hrp, -⟩ := (newOnlySet_eq_false_iff h).mp hset
  simp [followCount, hkf, hrp]

theorem byteItems_length {ws : List Word} {b : List Byte} (hb : byteItems ws = .ok b) : b.length = ws.length := by
  obtain ⟨-, rfl⟩ := (byteItems_eq_ok_iff ws b).mp hb
  exact List.length_map _

/-- The operands a whole frame gives are within the bounds of the encoding. -/
theorem wf_of_givesOperands {h : Word} {ws : List Word} {i : Instr} (hlen : ws.length = followCount h)
    (hops : GivesOperands h ws i) : i.wf = true := by
  have hle := lenField_le h
  have hitems := itemWords_length hlen
  cases i with
  | keysize | blocksize => rfl
  | newBytes key r =>
    obtain ⟨hkf, items, htake, hkey⟩ := hops
    rw [← takeRounds_items htake, ← byteItems_length hkey, hkf, Bool.toNat_false] at hitems
    exact (Instr.wf_newBytes key r).mpr ⟨by omega, takeRounds_wf htake⟩
  | newWords key r =>
    obtain ⟨hkf, emask, elems, htake, rfl⟩ := hops
    rw [← takeRounds_items htake, List.length_cons, hkf, Bool.toNat_true] at hitems
    exact (Instr.wf_newWords _ r).mpr ⟨by rw [keyElems_length]; omega, takeRounds_wf htake⟩
  | encrypt b | decrypt b =>
    obtain ⟨hset, hb⟩ := hops
    rw [followCount_of_newOnlySet_eq_false hset, ← byteItems_length hb] at hlen
    exact (itemsFit_iff b).mpr (by omega)
  | encryptBlock w | decryptBlock w =>
    obtain ⟨hset, rfl⟩ := hops
    rw [followCount_of_newOnlySet_eq_false hset] at hlen
    exact (itemsFit_iff w).mpr (by omega)

/-- Settles O44: a frame that decodes gives the operands of its instruction, which are then within their bounds. -/
theorem decodedCommandsAreWellFormed : Obligations.DecodedCommandsAreWellFormed := by
  intro h ws i hd
  obtain ⟨hres, hlen, hop, hops⟩ := decode_eq_ok_iff.mp hd
  exact ⟨wf_of_givesOperands hlen hops, hop, hlen, hres⟩

/-! ## What the encoder sends decodes (R71 to R75) -/

/-- The encoder sends as many following words as its header announces. -/
theorem following_length {i : Instr} (hwf : i.wf = true) : i.following.length = followCount i.header := by
  cases i with
  | keysize => exact Laws.EncodeFrames.keysize hwf
  | blocksize => exact Laws.EncodeFrames.blocksize hwf
  | newBytes key r => exact Laws.EncodeFrames.newBytes key r hwf
  | newWords key r => exact Laws.EncodeFrames.newWords key r hwf
  | encrypt b => exact Laws.EncodeFrames.encrypt b hwf
  | decrypt b => exact Laws.EncodeFrames.decrypt b hwf
  | encryptBlock w => exact Laws.EncodeFrames.encryptBlock w hwf
  | decryptBlock w => exact Laws.EncodeFrames.decryptBlock w hwf

/-- Two's complement gives the rounds operand back. -/
theorem toInt_ofInt_of_wf {v : Int} (hwf : (RoundsArg.int v).wf = true) : (BitVec.ofInt 32 v).toInt = v := by
  obtain ⟨hlow, hhigh⟩ := (RoundsArg.wf_int_iff v).mp hwf
  exact BitVec.toInt_ofInt_eq_self (by decide) (by omega) (by omega)

/-- A header with the encoder's `RP` and `RI` reads the encoder's rounds operand back, and the items behind it. -/
theorem takeRounds_encoded {h : Word} {r : RoundsArg} (hrp : rpBit h = r.present) (hri : riBit h = r.isInt)
    (hwf : r.wf = true) (items : List Word) : takeRounds h (r.words ++ items) = .ok (r, items) := by
  cases r with
  | absent => simp [takeRounds, hrp, RoundsArg.present, RoundsArg.words]
  | int v => simp [takeRounds, hrp, hri, RoundsArg.present, RoundsArg.isInt, RoundsArg.words, toInt_ofInt_of_wf hwf]
  | nonInt => simp [takeRounds, hrp, hri, RoundsArg.present, RoundsArg.isInt, RoundsArg.words]

/-- The encoder sets no bit in a header without `NEW`'s operands. -/
theorem newOnlySet_mkHeader (op : Opcode) {len : Nat} (hl : len < 32) :
    newOnlySet (mkHeader op false false false len) = false := by
  obtain ⟨-, hkf, hrp, hri, -, -⟩ := mkHeader_fields op false false false hl
  simp [newOnlySet, hkf, hrp, hri]

/-- The fields that say which command a header announces read back. -/
theorem mkHeader_operation (op : Opcode) (kf rp ri : Bool) {len : Nat} (hl : len ≤ 31) :
    reservedField (mkHeader op kf rp ri len) = 0 ∧ opField (mkHeader op kf rp ri len) = op := by
  obtain ⟨hop, -, -, -, hres, -⟩ := mkHeader_fields op kf rp ri (Nat.lt_succ_of_le hl)
  exact ⟨hres, hop⟩

/-- The encoder's header announces its command. -/
theorem header_operation {i : Instr} (hwf : i.wf = true) : reservedField i.header = 0 ∧ opField i.header = i.opcode := by
  cases i with
  | keysize | blocksize => exact mkHeader_operation _ _ _ _ (Nat.zero_le _)
  | newBytes key r =>
    obtain ⟨hlen, -⟩ := (Instr.wf_newBytes key r).mp hwf
    exact mkHeader_operation _ _ _ _ hlen
  | newWords key r =>
    obtain ⟨hlen, -⟩ := (Instr.wf_newWords key r).mp hwf
    exact mkHeader_operation _ _ _ _ hlen
  | encrypt | decrypt | encryptBlock | decryptBlock => exact mkHeader_operation _ _ _ _ ((itemsFit_iff _).mp hwf)

/-- The encoder's words give the operands they were made of. -/
theorem encoded_givesOperands {i : Instr} (hwf : i.wf = true) : GivesOperands i.header i.following i := by
  cases i with
  | keysize | blocksize =>
    obtain ⟨-, -, -, -, -, hlen⟩ := mkHeader_fields _ false false false (len := 0) (by decide)
    exact ⟨newOnlySet_mkHeader _ (by decide), hlen⟩
  | newBytes key r =>
    obtain ⟨hlen, hr⟩ := (Instr.wf_newBytes key r).mp hwf
    obtain ⟨-, hkf, hrp, hri, -, -⟩ := mkHeader_fields 3 false r.present r.isInt (Nat.lt_succ_of_le hlen)
    exact ⟨hkf, _, takeRounds_encoded hrp hri hr _, byteItems_byteWord key⟩
  | newWords key r =>
    obtain ⟨hlen, hr⟩ := (Instr.wf_newWords key r).mp hwf
    obtain ⟨-, hkf, hrp, hri, -, -⟩ := mkHeader_fields 3 true r.present r.isInt (Nat.lt_succ_of_le hlen)
    exact ⟨hkf, _, _, takeRounds_encoded hrp hri hr _, (keyElems_encoded key hlen).symm⟩
  | encrypt b | decrypt b =>
    exact ⟨newOnlySet_mkHeader _ (Nat.lt_succ_of_le ((itemsFit_iff b).mp hwf)), byteItems_byteWord b⟩
  | encryptBlock w | decryptBlock w =>
    exact ⟨newOnlySet_mkHeader _ (Nat.lt_succ_of_le ((itemsFit_iff w).mp hwf)), rfl⟩

/-- Settles O43: an encoded command is a whole frame whose header and words give its operation and its operands. -/
theorem decodeUndoesEncode : Obligations.DecodeUndoesEncode := by
  intro i hwf
  obtain ⟨hres, hop⟩ := header_operation hwf
  exact decode_eq_ok_iff.mpr ⟨hres, following_length hwf, hop, encoded_givesOperands hwf⟩

/-! ## The illegal encodings (R78) -/

theorem exists_decodeQuery_error_iff (i : Instr) (h : Word) :
    (∃ e, decodeQuery i h = .error e) ↔ newOnlySet h = true ∨ lenField h ≠ 0 := by
  unfold decodeQuery
  split
  · simp [*]
  · split <;> simp [*]

theorem exists_decodeBytes_error_iff (mk : List Byte → Instr) (h : Word) (ws : List Word) :
    (∃ e, decodeBytes mk h ws = .error e) ↔ newOnlySet h = true ∨ ¬ bytesClean h ws := by
  cases hset : newOnlySet h with
  | true => simp [decodeBytes, hset]
  | false =>
    rw [bytesClean, itemWords_of_newOnlySet_eq_false hset]
    rcases byteItems_cases ws with ⟨hb, hclean⟩ | ⟨hb, hdirty⟩
    · simpa [decodeBytes, hset, hb] using hclean
    · simpa [decodeBytes, hset, hb] using hdirty

theorem exists_decodeWords_error_iff (mk : List Word → Instr) (h : Word) (ws : List Word) :
    (∃ e, decodeWords mk h ws = .error e) ↔ newOnlySet h = true := by
  unfold decodeWords
  split <;> simp [*]

/-- Where the words are as many as the header announces, `NEW.WORDS` refuses none and `NEW.BYTES` only what is no byte. -/
theorem exists_decodeNew_error_iff {h : Word} {ws : List Word} (hlen : ws.length = followCount h) :
    (∃ e, decodeNew h ws = .error e) ↔ kfBit h = false ∧ ¬ bytesClean h ws := by
  obtain ⟨r, htake⟩ := takeRounds_of_le (h := h) (ws := ws) (by rw [hlen, followCount]; omega)
  cases hkf : kfBit h with
  | false =>
    rcases byteItems_cases (itemWords h ws) with ⟨hb, hclean⟩ | ⟨hb, hdirty⟩
    · simpa [decodeNew, htake, hkf, hb, bytesClean] using hclean
    · simpa [decodeNew, htake, hkf, hb, bytesClean] using hdirty
  | true =>
    have hcount := itemWords_length hlen
    rcases hitems : itemWords h ws with _ | ⟨emask, elems⟩
    · rw [hitems, hkf, Bool.toNat_true, List.length_nil] at hcount
      omega
    · simp [decodeNew, htake, hkf, hitems]

/-- The operation codes: those of R77, 0 and those from 8. -/
theorem opcode_cases (op : Opcode) :
    op = 0 ∨ 8 ≤ op.toNat ∨ op = 1 ∨ op = 2 ∨ op = 3 ∨ op = 4 ∨ op = 5 ∨ op = 6 ∨ op = 7 := by
  revert op
  decide

theorem decode_of_reservedField_ne {h : Word} (ws : List Word) (hres : reservedField h ≠ 0) :
    decode h ws = .error .reservedBits :=
  if_pos hres

/-- Above the operation codes of R77 there is no command. -/
theorem decode_of_opField_ge {h : Word} {ws : List Word} (hlen : ws.length = followCount h) (hres : reservedField h = 0)
    (hop : 8 ≤ (opField h).toNat) : decode h ws = .error .unusedOpcode := by
  rw [decode_eq h ws hlen hres]
  split
  case h_8 => rfl
  all_goals omega

/-- The whole frames that do not decode are those of R78's list. -/
theorem exists_reject_iff {h : Word} {ws : List Word} (hlen : ws.length = followCount h) :
    (∃ e, decode h ws = .error e) ↔
      opField h = 0 ∨ 8 ≤ (opField h).toNat ∨ reservedField h ≠ 0 ∨ (opField h ≠ 3 ∧ newOnlySet h = true) ∨
        ((opField h = 1 ∨ opField h = 2) ∧ lenField h ≠ 0) ∨
        ((opField h = 4 ∨ opField h = 5 ∨ (opField h = 3 ∧ kfBit h = false)) ∧ ¬ bytesClean h ws) := by
  by_cases hres : reservedField h = 0
  · rcases opcode_cases (opField h) with hop | hop | hop | hop | hop | hop | hop | hop | hop
    case inr.inl => simp [decode_of_opField_ge hlen hres hop, hop]
    all_goals
      rw [decode_eq h ws hlen hres, hop]
      simp [exists_decodeQuery_error_iff, exists_decodeBytes_error_iff, exists_decodeWords_error_iff,
        exists_decodeNew_error_iff hlen, hres]
  · exact iff_of_true ⟨_, decode_of_reservedField_ne ws hres⟩ (.inr (.inr (.inl hres)))

theorem newOnlySet_eq_true_iff (h : Word) : newOnlySet h = true ↔ kfBit h = true ∨ rpBit h = true ∨ riBit h = true := by
  simp [newOnlySet, or_assoc]

/-- Settles O46: the rejections by operation code are R78's list; delivered, they are answered by one status word. -/
theorem illegalEncodingsAreRefusedAndHarmless : Obligations.IllegalEncodingsAreRefusedAndHarmless := by
  refine fun h ws hlen => ⟨?_, fun s ⟨e, hd⟩ => ⟨s.ib, [], deliver_of_error hd s⟩⟩
  rw [← newOnlySet_eq_true_iff]
  exact exists_reject_iff hlen

/-! ## What is ignored (R78) -/

/-- Another `RI` leaves the other fields. -/
theorem fields_xor_riMask (h : Word) :
    opField (h ^^^ 0x02000000) = opField h ∧ kfBit (h ^^^ 0x02000000) = kfBit h ∧ rpBit (h ^^^ 0x02000000) = rpBit h ∧
      reservedField (h ^^^ 0x02000000) = reservedField h ∧ lenField (h ^^^ 0x02000000) = lenField h := by
  refine ⟨?_, ?_, ?_, ?_, ?_⟩
  · simp [opField, BitVec.extractLsb'_xor]
  · simp [kfBit]
  · simp [rpBit]
  · simp [reservedField, BitVec.extractLsb'_xor]
  · simp [lenField, BitVec.extractLsb'_xor]


/-- Without a rounds operand, `NEW` looks at `KF` alone. -/
theorem decodeNew_congr_of_rpBit {g h : Word} (hkf : kfBit g = kfBit h) (hrp : rpBit g = rpBit h)
    (hnone : rpBit h = false) (ws : List Word) : decodeNew g ws = decodeNew h ws := by
  simp [decodeNew, takeRounds, hkf, hrp, hnone]

/-- Where `KF`, `RP` or `RI` is set, other words of the same number matter to `NEW` alone. -/
theorem decode_congr_of_newOnlySet {h : Word} {ws ws' : List Word} (hset : newOnlySet h = true)
    (hlen : ws.length = ws'.length) (hnew : ws.length = followCount h → decodeNew h ws = decodeNew h ws') :
    decode h ws = decode h ws' := by
  by_cases hres : reservedField h = 0
  · by_cases hcount : ws.length = followCount h
    · rw [decode_eq h ws hcount hres, decode_eq h ws' (hlen ▸ hcount) hres, hnew hcount]
      simp only [decodeBytes, decodeWords, hset, if_true]
    · simp [decode, hres, hcount, ← hlen]
  · rw [decode_of_reservedField_ne ws hres, decode_of_reservedField_ne ws' hres]

/-- Elements are read alike from `EMASK` words with the same bits below the count, and from item words that agree where the
bit is 1. -/
theorem keyElems_congr {m m' : Word} {ws ws' : List Word} (hlen : ws.length = ws'.length)
    (hbits : ∀ j < ws.length, m.getLsbD j = m'.getLsbD j) (hwords : ∀ j, m.getLsbD j = true → ws[j]? = ws'[j]?) :
    keyElems m 0 ws = keyElems m' 0 ws' := by
  apply List.ext_getElem?
  intro j
  rw [keyElems_get, keyElems_get, Nat.zero_add]
  by_cases hj : j < ws.length
  · rw [← hbits j hj]
    cases hm : m.getLsbD j with
    | true => rw [hwords j hm]
    | false => simp [hj, hlen ▸ hj]
  · rw [List.getElem?_eq_none (by omega), List.getElem?_eq_none (by omega), Option.map_none, Option.map_none]

/-- `NEW.WORDS` reads its elements from the words behind `RVAL`. -/
theorem decodeNew_congr {h m m' : Word} {pre ws ws' : List Word} (hkf : kfBit h = true)
    (hpre : pre.length = (rpBit h).toNat) (helems : keyElems m 0 ws = keyElems m' 0 ws') :
    decodeNew h (pre ++ m :: ws) = decodeNew h (pre ++ m' :: ws') := by
  cases hrp : rpBit h with
  | false =>
    obtain rfl : pre = [] := by simpa [hrp] using hpre
    simp [decodeNew, takeRounds, hrp, hkf, helems]
  | true =>
    obtain ⟨v, rfl⟩ : ∃ v, pre = [v] := List.length_eq_one_iff.mp (by simpa [hrp] using hpre)
    simp [decodeNew, takeRounds, hrp, hkf, helems]

/-- Settles O47: `takeRounds` looks at `RI` and at `RVAL` only where there is an integer operand, and `keyElems` at a bit or a
word only where there is an element, an integer. -/
theorem ignoredFieldsHaveNoEffect : Obligations.IgnoredFieldsHaveNoEffect := by
  refine ⟨?ri, ?rval, ?emask, ?items⟩
  case ri =>
    intro h ws hop hrp
    obtain ⟨hop', hkf, hrp', hres, hlen⟩ := fields_xor_riMask h
    simp only [decode, hop', hop, hres, followCount, hkf, hrp', hlen, decodeNew_congr_of_rpBit hkf hrp' hrp]
    rfl
  case rval =>
    intro h v v' ws hrp hri
    refine decode_congr_of_newOnlySet (by simp [newOnlySet, hrp]) rfl fun _ => ?_
    simp [decodeNew, takeRounds, hrp, hri]
  case emask =>
    intro h m m' ws pre hkf hpre hbits
    refine decode_congr_of_newOnlySet (by simp [newOnlySet, hkf]) (by simp) fun hcount => ?_
    have hcount' : ws.length = lenField h := by
      simp only [followCount, hkf, Bool.toNat_true, List.length_append, List.length_cons] at hcount
      omega
    exact decodeNew_congr hkf hpre (keyElems_congr rfl (hcount' ▸ hbits) fun _ _ => rfl)
  case items =>
    intro h m ws ws' pre hkf hpre hlen hwords
    refine decode_congr_of_newOnlySet (by simp [newOnlySet, hkf]) (by simp [hlen]) fun _ => ?_
    exact decodeNew_congr hkf hpre (keyElems_congr hlen (fun _ _ => rfl) hwords)

/-! ## Framing and the worked encodings (R72, R86) -/

theorem toNat_decide_mod_two (n : Nat) : (decide (n % 2 = 1)).toNat = n % 2 := by
  rcases Nat.mod_two_eq_zero_or_one n with h | h <;> simp [h]

/-- Settles O50: each field of the header is a quotient of its number. -/
theorem followingWordsComeFromTheHeaderAlone : Obligations.FollowingWordsComeFromTheHeaderAlone := by
  intro h
  rw [followCount, rpBit_eq, kfBit_eq, lenField_eq, toNat_decide_mod_two, toNat_decide_mod_two]
  omega

/-- Settles O42: the worked encodings, evaluated. -/
theorem workedEncodingsDecode : Obligations.WorkedEncodingsDecode := by
  unfold Obligations.WorkedEncodingsDecode
  decide

/-! ## The status word (R79) -/

theorem statusWord_toNat (err : Bool) (ope : Opcode) (code rlen : BitVec 8) :
    (statusWord err ope code rlen).toNat =
      err.toNat * 2 ^ 31 + ope.toNat * 2 ^ 24 + code.toNat * 2 ^ 8 + rlen.toNat := by
  unfold statusWord
  rw [append_toNat, append_toNat, append_toNat, append_toNat, append_toNat]
  simp only [BitVec.toNat_ofBool, BitVec.ofNat_eq_ofNat, BitVec.toNat_ofNat]
  omega

/-- A field of a word, as a number. -/
theorem extractLsb'_eq_iff (w : Word) (start len : Nat) (x : BitVec len) :
    w.extractLsb' start len = x ↔ w.toNat / 2 ^ start % 2 ^ len = x.toNat := by
  rw [← BitVec.toNat_inj, BitVec.extractLsb'_toNat, Nat.shiftRight_eq_div_pow]

theorem statusWord_fields (err : Bool) (ope : Opcode) (code rlen : BitVec 8) :
    let s := statusWord err ope code rlen
    s.getLsbD 31 = err ∧ s.extractLsb' 28 3 = 0 ∧ s.extractLsb' 24 4 = ope ∧ s.extractLsb' 16 8 = 0 ∧
      s.extractLsb' 8 8 = code ∧ s.extractLsb' 0 8 = rlen := by
  have hs := statusWord_toNat err ope code rlen
  have hope := ope.isLt
  have hcode := code.isLt
  have hrlen := rlen.isLt
  have herr := err.toNat_le
  refine ⟨?err, ?zeros, ?ope, ?zeros', ?code, ?rlen⟩
  case err =>
    rw [← BitVec.testBit_toNat, Nat.testBit_eq_decide_div_mod_eq, hs]
    cases err <;> simp <;> omega
  case zeros | zeros' =>
    refine (extractLsb'_eq_iff ..).mpr (Eq.trans ?_ BitVec.toNat_zero.symm)
    omega
  case ope | code | rlen =>
    rw [extractLsb'_eq_iff, hs]
    omega

theorem code_ne_zero (e : ErrName) : e.code ≠ 0 := by
  cases e <;> decide

/-- Settles O51: the fields of the status word from its number; the responses are those of the definition. -/
theorem statusWordHasItsFields : Obligations.StatusWordHasItsFields :=
  ⟨statusWord_fields, fun _ _ => rfl, fun op e => ⟨responseWords_err op e, code_ne_zero e⟩⟩

end Sys2Proof.Machine
end

section
/-! PROOF. The invariant of the machine (Safety.lean): reset meets it, every step and every move of the host keeps it, and from
a state that meets it no step stops (60_exceptions.md section 6, 70_reset_and_hazards.md section 5). -/

namespace Sys2Proof.Machine

/-! ## The invariant, part by part -/

theorem State.sequencerOk_of_idle {s : State} (hph : s.ph = .idle) : s.SequencerOk := by
  simp [State.SequencerOk, hph]

/-- In IDLE with nothing in delivery, what is left to check. -/
theorem State.inv_of_idle {s : State} (hrounds : s.RoundsInRange) (hph : s.ph = .idle) (hrx : s.rx = [])
    (hout : s.rspOut.length ≤ 9) (hib : s.ib.length ≤ 31) (hob : s.ob.length ≤ 8) : s.Inv where
  rounds := hrounds
  sequencer := State.sequencerOk_of_idle hph
  channels := ⟨by simp [hrx], hout⟩
  buffers := ⟨hib, hob⟩

/-- The transforms' opcodes of a direction (R133). -/
def Direction.Runs (d : Direction) (opl : Opcode) : Prop :=
  match d with
  | .forward => opl = 4 ∨ opl = 6
  | .inverse => opl = 5 ∨ opl = 7

/-- `SUM` after `rc` of `rounds` rounds (R128). -/
def Direction.sumAfter (d : Direction) (rounds rc : Nat) : Word :=
  match d with
  | .forward => mul32 Config.delta rc
  | .inverse => mul32 Config.delta (rounds - rc)

/-- While a direction runs, the sequencer's part of the invariant is this. -/
theorem State.sequencerOk_iff {d : Direction} {s : State} (hph : s.ph = d.phase) :
    s.SequencerOk ↔ s.cfg = true ∧ s.rc.toNat ≤ s.rounds.toNat ∧ d.Runs s.opl ∧
      s.sum = d.sumAfter s.rounds.toNat s.rc.toNat ∧ s.rx = [] ∧ s.rspOut = [] := by
  cases d <;> simp [State.SequencerOk, hph, Direction.Runs, Direction.sumAfter]

/-! ## Reset -/

/-- Settles O1: the fields of the state after reset. -/
theorem resetIsIdleWithoutAnInstance : Obligations.ResetIsIdleWithoutAnInstance := ⟨rfl, rfl, rfl, rfl, rfl⟩

theorem State.roundsInRange_of_cfg_false {s : State} (hc : s.cfg = false) : s.RoundsInRange := by
  simp [State.RoundsInRange, hc]

/-- Settles O2: after reset the block is idle with `CFG = 0`, its channels and buffers empty. -/
theorem resetMeetsTheInvariant : Obligations.ResetMeetsTheInvariant :=
  State.inv_of_idle (State.roundsInRange_of_cfg_false rfl) rfl rfl (Nat.zero_le _) (Nat.zero_le _) (Nat.zero_le _)

theorem resetEvent_inv (s : State) : s.resetEvent.Inv :=
  State.inv_of_idle (State.roundsInRange_of_cfg_false rfl) rfl rfl (Nat.zero_le _) s.resetEvent_ib_length
    s.resetEvent_ob_length

/-! ## The rounds and the completion -/

/-- One round more moves `SUM` to its next value. -/
theorem Direction.round_sum {d : Direction} {s : State} (hlt : s.rc.toNat < s.rounds.toNat)
    (hsum : s.sum = d.sumAfter s.rounds.toNat s.rc.toNat) :
    (d.round s).sum = d.sumAfter s.rounds.toNat (s.rc.toNat + 1) := by
  cases d with
  | forward => exact (congrArg (add32 · Config.delta) hsum).trans (mul32_succ _ _).symm
  | inverse => exact (congrArg (sub32 · Config.delta) hsum).trans (mul32_sub_succ _ hlt).symm

/-- A counter below `ROUNDS` does not wrap. -/
theorem rc_succ_toNat {s : State} (hlt : s.rc.toNat < s.rounds.toNat) : (s.rc + 1).toNat = s.rc.toNat + 1 := by
  have := s.rounds.isLt
  exact BitVec.toNat_add_of_lt (by simp; omega)

theorem round_inv {d : Direction} {s : State} (hs : s.Inv) (hph : s.ph = d.phase) (hlt : s.rc.toNat < s.rounds.toNat) :
    (d.round s).Inv := by
  obtain ⟨hc, -, hopl, hsum, hrx, hout⟩ := (State.sequencerOk_iff hph).mp hs.sequencer
  have hseq : (s.withWorking (d.round s).block (d.round s).sum (s.rc + 1)).SequencerOk := by
    refine (State.sequencerOk_iff (s := s.withWorking ..) hph).mpr ⟨hc, ?_, hopl, ?_, hrx, hout⟩
    · rw [State.withWorking_rc, State.withWorking_rounds, rc_succ_toNat hlt]
      omega
    · rw [State.withWorking_rc, State.withWorking_rounds, rc_succ_toNat hlt]
      exact Direction.round_sum hlt hsum
  rw [d.round_eq s]
  exact ⟨hs.rounds, hseq, hs.channels, hs.buffers⟩

/-- The opcode of a running transform names a result form, of at most eight items. -/
theorem exists_resultItems {d : Direction} {opl : Opcode} (h : d.Runs opl) (b : Block) :
    ∃ items, resultItems opl b = some items ∧ items.length ≤ 8 := by
  cases d with
  | forward => rcases h with rfl | rfl <;> exact ⟨_, rfl, by simp⟩
  | inverse => rcases h with rfl | rfl <;> exact ⟨_, rfl, by simp⟩

theorem responseWords_length (op : Opcode) (a : Answer) : (responseWords op a).length = a.items.length + 1 := by
  cases a <;> simp [responseWords, Answer.items]

theorem completed_inv {s : State} {items : List ResItem} (hs : s.Inv) (hrx : s.rx = []) (hout : s.rspOut = [])
    (hitems : items.length ≤ 8) : (completed s items).Inv := by
  refine State.inv_of_idle hs.rounds rfl hrx ?_ hs.buffers.1 hitems
  rw [completed_rspOut, hout, List.nil_append, responseWords_length]
  exact Nat.succ_le_succ hitems

/-- A running phase goes on, and keeps the invariant. -/
theorem step_running_inv {d : Direction} {s : State} (hs : s.Inv) (hrst : s.rst = false) (hph : s.ph = d.phase) :
    ∃ t, step s = .next t ∧ t.Inv := by
  obtain ⟨-, hle, hopl, -, hrx, hout⟩ := (State.sequencerOk_iff hph).mp hs.sequencer
  by_cases hlt : s.rc.toNat < s.rounds.toNat
  · exact ⟨_, step_round hrst hph hlt, round_inv hs hph hlt⟩
  · have hrc : s.rc = s.rounds := BitVec.eq_of_toNat_eq (by omega)
    obtain ⟨items, hitems, hcount⟩ := exists_resultItems hopl s.block
    exact ⟨_, step_completes hrst hph hrc hitems, completed_inv hs hrx hout hcount⟩

/-! ## The commands -/

/-- Where a `NEW` succeeds its round count is in range. -/
theorem checkNew_rounds_range {key : Except ErrName Key} {r : RoundsArg} {k : Key} {n : Word} (hwf : r.wf = true)
    (h : checkNew key r = .ok (k, n)) : 1 ≤ n.toNat ∧ n.toNat ≤ 2147483647 := by
  have hr : roundsOf r = .ok n := by
    unfold checkNew at h
    split at h
    · cases h
    · split at h
      · cases h
      next hn =>
        cases h
        exact hn
  cases r with
  | absent =>
    cases hr
    decide
  | nonInt => cases hr
  | int v =>
    obtain ⟨-, hmax⟩ := (RoundsArg.wf_int_iff v).mp hwf
    by_cases hpos : 1 ≤ v
    · rw [roundsOf_int_of_pos hpos] at hr
      cases hr
      have := ofInt_toNat_of_pos hpos hmax
      omega
    · rw [roundsOf_of_badRounds (.inr ⟨v, rfl, by omega⟩)] at hr
      cases hr

/-- `NEW.*` writes what its checks give. -/
theorem checkNew_of_transactNew {key : Except ErrName Key} {r : RoundsArg} {c : Cipher} {k : Key} {n : Word}
    (h : transactNew key r c = (⟨k, n, true⟩, .ok [])) : checkNew key r = .ok (k, n) := by
  rcases hcheck : checkNew key r with e | ⟨k', n'⟩
  · simp [transactNew, hcheck] at h
  · simp only [transactNew, hcheck, Prod.mk.injEq, Cipher.mk.injEq] at h
    obtain ⟨⟨rfl, rfl, -⟩, -⟩ := h
    rfl

theorem transact_new_rounds_range {i : Instr} {c : Cipher} {k : Key} {n : Word} (hwf : i.wf = true) (hnew : isNew i = true)
    (h : transact i c = (⟨k, n, true⟩, .ok [])) : 1 ≤ n.toNat ∧ n.toNat ≤ 2147483647 := by
  cases i with
  | newBytes key r =>
    obtain ⟨-, hr⟩ := (Instr.wf_newBytes key r).mp hwf
    exact checkNew_rounds_range hr (checkNew_of_transactNew h)
  | newWords key r =>
    obtain ⟨-, hr⟩ := (Instr.wf_newWords key r).mp hwf
    exact checkNew_rounds_range hr (checkNew_of_transactNew h)
  | keysize | blocksize | encrypt | decrypt | encryptBlock | decryptBlock => cases hnew

theorem operandItems_length {i : Instr} (hwf : i.wf = true) : (operandItems i).length ≤ 31 := by
  cases i with
  | keysize | blocksize => exact Nat.zero_le _
  | newBytes key r =>
    obtain ⟨hlen, -⟩ := (Instr.wf_newBytes key r).mp hwf
    exact (List.length_map _).trans_le hlen
  | newWords key r =>
    obtain ⟨hlen, -⟩ := (Instr.wf_newWords key r).mp hwf
    exact (List.length_map _).trans_le hlen
  | encrypt | decrypt | encryptBlock | decryptBlock => exact (List.length_map _).trans_le ((itemsFit_iff _).mp hwf)

/-- The items a command answers at once are a size, or none. -/
theorem answered_items_length {i : Instr} {a : Answer} {c : Cipher} (htr : transact i c = (c, a))
    (herr : isNew i = true ∨ isTransform i = true → ∃ e, a = .err e) : a.items.length ≤ 8 := by
  cases i with
  | keysize | blocksize =>
    cases htr
    decide
  | newBytes | newWords =>
    obtain ⟨e, rfl⟩ := herr (.inl rfl)
    exact Nat.zero_le _
  | encrypt | decrypt | encryptBlock | decryptBlock =>
    obtain ⟨e, rfl⟩ := herr (.inr rfl)
    exact Nat.zero_le _

theorem runs_opcode {i : Instr} (h : isTransform i = true) : (directionOf i).Runs i.opcode := by
  cases i with
  | keysize | blocksize | newBytes | newWords => cases h
  | encrypt | decrypt => exact .inl rfl
  | encryptBlock | decryptBlock => exact .inr rfl

theorem Direction.startSum_eq (d : Direction) (rounds : Word) : d.startSum rounds = d.sumAfter rounds.toNat 0 := by
  cases d <;> rfl

theorem answer_inv {s : State} (hrounds : s.RoundsInRange) (hph : s.ph = .idle) (hrx : s.rx = []) (hout : s.rspOut = [])
    (hib : s.ib.length ≤ 31) (op : Opcode) {a : Answer} (ha : a.items.length ≤ 8) : (s.answer op a).Inv := by
  refine State.inv_of_idle hrounds hph hrx ?_ hib ha
  rw [State.answer_rspOut, hout, List.nil_append, responseWords_length]
  exact Nat.succ_le_succ ha

/-- A well-formed command, executed in IDLE with no response pending, keeps the invariant. -/
theorem exec_inv {i : Instr} {s : State} (hwf : i.wf = true) (hs : s.Inv) (hph : s.ph = .idle) (hrx : s.rx = [])
    (hout : s.rspOut = []) : ∃ t, exec i s = .next t ∧ t.Inv := by
  have hib := operandItems_length hwf
  rcases exec_cases i s with ⟨a, hexec, htr, herr⟩ | ⟨k, n, hexec, hnew, htr⟩ | ⟨b, hexec, htf, hc, -⟩
  · exact ⟨_, hexec, answer_inv (s := s.loadIB (operandItems i)) hs.rounds hph hrx hout hib _
      (answered_items_length htr herr)⟩
  · exact ⟨_, hexec, answer_inv (s := (s.loadIB (operandItems i)).writeInstance k n)
      (fun _ => transact_new_rounds_range hwf hnew htr) hph hrx hout hib _ (Nat.zero_le _)⟩
  · refine ⟨_, hexec, hs.rounds, ?_, hs.channels, hib, hs.buffers.2⟩
    exact (State.sequencerOk_iff (d := directionOf i) rfl).mpr
      ⟨hc, Nat.zero_le _, runs_opcode htf, Direction.startSum_eq .., hrx, hout⟩

/-! ## The channels -/

/-- While a response is pending nothing is in delivery. -/
theorem State.Inv.rx_eq_nil {s : State} {w : Word} {rest : List Word} (hs : s.Inv) (hout : s.rspOut = w :: rest) :
    s.rx = [] := by
  obtain ⟨hrx, -⟩ := hs.channels
  rcases hr : s.rx with _ | ⟨h, ws⟩
  · rfl
  · obtain ⟨-, hnone⟩ := hrx h ws hr
    simp [hnone] at hout

theorem takeResponse_buffersOk (w : Word) (rest : List Word) {s : State} (hs : s.BuffersOk) :
    (takeResponse w rest s).BuffersOk := by
  cases rest with
  | nil => exact ⟨State.forgetBuffers_ib_length _, State.forgetBuffers_ob_length _⟩
  | cons => exact hs

theorem takeResponse_inv {w : Word} {rest : List Word} {s : State} (hs : s.Inv) (hph : s.ph = .idle)
    (hout : s.rspOut = w :: rest) : (takeResponse w rest s).Inv := by
  obtain ⟨-, hlen⟩ := hs.channels
  obtain ⟨hib, hob⟩ := takeResponse_buffersOk w rest hs.buffers
  refine State.inv_of_idle ?_ (by rw [takeResponse_ph, hph]) (by rw [takeResponse_rx, hs.rx_eq_nil hout]) ?_ hib hob
  · rw [State.RoundsInRange, takeResponse_cfg, takeResponse_rounds]
    exact hs.rounds
  · rw [hout, List.length_cons] at hlen
    rw [takeResponse_rspOut]
    omega

/-- A word taken into a command that is not yet whole. -/
theorem takeWord_inv {h : Word} {ws rest : List Word} {s : State} (hs : s.Inv) (hph : s.ph = .idle) (hout : s.rspOut = [])
    (hpart : ws.length < followCount h) : State.Inv { s with cmdIn := rest, rx := h :: ws } where
  rounds := hs.rounds
  sequencer := State.sequencerOk_of_idle hph
  channels := by
    refine ⟨fun h' ws' heq => ?_, by simp [hout]⟩
    cases heq
    exact ⟨hpart, hout⟩
  buffers := hs.buffers

theorem idleStep_inv {s : State} (hs : s.Inv) (hph : s.ph = .idle) : ∃ t, idleStep s = .next t ∧ t.Inv := by
  rcases idleStep_cases s with ⟨w, rest, hout, -, hstep⟩ | ⟨-, hstep⟩ | ⟨w, rest, h, ws, hout, -, -, hword⟩
  · exact ⟨_, hstep, takeResponse_inv hs hph hout⟩
  · exact ⟨s, hstep, hs⟩
  · have hended : State.Inv { s with cmdIn := rest, rx := [] } :=
      State.inv_of_idle hs.rounds hph rfl (by simp [hout]) hs.buffers.1 hs.buffers.2
    rcases hword with ⟨hpart, hstep⟩ | ⟨-, i, hdec, hstep⟩ | ⟨-, e, -, hstep⟩
    · exact ⟨_, hstep, takeWord_inv hs hph hout hpart⟩
    · obtain ⟨hwf, -⟩ := decodedCommandsAreWellFormed h ws i hdec
      rw [hstep]
      exact exec_inv hwf hended hph rfl hout
    · exact ⟨_, hstep, answer_inv hended.rounds hph rfl hout hended.buffers.1 _ (Nat.zero_le _)⟩

/-! ## Every step, and every run with the host -/

/-- From a state that meets the invariant a step answers a next state that meets it. -/
theorem step_inv {s : State} (hs : s.Inv) : ∃ t, step s = .next t ∧ t.Inv := by
  cases hrst : s.rst with
  | true => exact ⟨_, step_reset hrst, resetEvent_inv s⟩
  | false =>
    cases hph : s.ph with
    | idle =>
      rw [step_idle hrst hph]
      exact idleStep_inv hs hph
    | runEnc => exact step_running_inv (d := .forward) hs hrst hph
    | runDec => exact step_running_inv (d := .inverse) hs hrst hph

/-- Settles O3: a step has one outcome, and it meets the invariant. -/
theorem everyStepKeepsTheInvariant : Obligations.EveryStepKeepsTheInvariant := by
  intro s t hs h
  obtain ⟨u, hu, hinv⟩ := step_inv hs
  cases hu.symm.trans h
  exact hinv

/-- Settles O4: the invariant shuts out the states in which the sequencer stops. -/
theorem noStepStops : Obligations.NoStepStops := by
  intro s hs
  obtain ⟨t, ht, -⟩ := step_inv hs
  exact ⟨t, ht⟩

/-- The host's moves change ports the invariant does not speak of. -/
theorem hostMove_inv (m : HostMove) {s : State} (hs : s.Inv) : (hostMove m s).Inv := by
  obtain ⟨hrounds, hseq, hchannels, hbuffers⟩ := hs
  cases m <;> exact ⟨hrounds, hseq, hchannels, hbuffers⟩

/-- Settles O5: by induction on the events, a block's step by `step_inv` and a host's move by `hostMove_inv`. -/
theorem everyInterleavingGoesOn : Obligations.EveryInterleavingGoesOn := by
  intro es
  induction es with
  | nil => exact fun s hs => ⟨s, rfl, hs⟩
  | cons event es ih =>
    intro s hs
    cases event with
    | host m => exact ih _ (hostMove_inv m hs)
    | block =>
      obtain ⟨t, ht, hinv⟩ := step_inv hs
      rw [runEvents, ht]
      exact ih t hinv

/-! ## Where the sequencer stops (entry 10) -/

/-- Settles O38: outside the sequencer's states a running step falls through to its two faults. -/
theorem sequencerStopsOutsideItsStates : Obligations.SequencerStopsOutsideItsStates := by
  refine ⟨fun s hrst hph hpast => ?past, fun s hrst hph hrc h4 h5 h6 h7 => ?foreign⟩
  all_goals
    obtain ⟨d, hd⟩ := exists_eq_phase hph
    rw [step_running hrst hd]
  case past =>
    have hne : s.rc ≠ s.rounds := by
      rintro heq
      exact absurd (heq ▸ hpast) (Nat.lt_irrefl _)
    rw [runningStep, if_neg (by omega), if_neg hne]
  case foreign =>
    have hnone : resultItems s.opl s.block = none := by
      rw [resultItems, if_neg (not_or.mpr ⟨h4, h5⟩), if_neg (not_or.mpr ⟨h6, h7⟩)]
    simp [runningStep, completionStep, hrc, hnone]

end Sys2Proof.Machine
end

section
/-! PROOF. What the commands leave as it was (10_state.md section 5), and that a transform's run by its sequencer is its
transaction (41_block_codec.md R137). -/

namespace Sys2Proof.Machine

/-! ## The commands that only answer -/

/-- Settles O32: a query or a `NEW` answers at once, and writes at most `K`, `ROUNDS` and `CFG` beside. -/
theorem queriesAndNewLeaveTheSequencerAlone : Obligations.QueriesAndNewLeaveTheSequencerAlone := by
  intro i s t hnot hnext
  rcases exec_cases i s with ⟨a, hexec, htr, -⟩ | ⟨k, n, hexec, hnew, htr⟩ | ⟨b, -, htf, -, -⟩
  · cases hexec.symm.trans hnext
    simp [transactWords, htr]
  · cases hexec.symm.trans hnext
    simp [transactWords, htr, hnew]
  · simp [hnot] at htf

/-- A command that fails answers its error, and has its items in `IB`. -/
theorem exec_of_transact_err {i : Instr} {s : State} {e : ErrName} (h : (transact i s.cipher).2 = .err e) :
    exec i s = .next ((s.loadIB (operandItems i)).answer i.opcode (.err e)) := by
  rcases exec_cases i s with ⟨a, hexec, htr, -⟩ | ⟨k, n, -, -, htr⟩ | ⟨b, -, -, -, htr⟩ <;> rw [htr] at h
  · cases h
    exact hexec
  · cases h
  · cases h

/-- Settles O39: a command that fails only answers. -/
theorem failingCommandsChangeNothing : Obligations.FailingCommandsChangeNothing :=
  fun i _ _ h => ⟨operandItems i, [], exec_of_transact_err h⟩

/-- Settles O7: a step that sets `CFG` changes the Cipher, and is no reset event. -/
theorem onlyASuccessfulNewSetsCfg : Obligations.OnlyASuccessfulNewSetsCfg := by
  obtain ⟨-, -, hwrites⟩ := onlyASuccessfulNewWritesTheInstance
  intro s t h hclear hset
  have hrst : s.rst = false := by
    by_contra hrst
    rw [step_reset (Bool.eq_true_of_not_eq_false hrst)] at h
    cases h
    cases hset
  refine hwrites s t h hrst fun hsame => ?_
  have hcfg : t.cfg = s.cfg := congrArg Cipher.cfg hsame
  simp [hset, hclear] at hcfg

/-! ## The transforms -/

/-- Everything a transform that does not fail can do: it starts. -/
theorem exec_of_not_fails {i : Instr} {s : State} (htf : isTransform i = true) (h : ¬ Fails i s.cipher) :
    ∃ b, exec i s = .next ((s.loadIB (operandItems i)).startStep (directionOf i) i.opcode b) ∧
      transact i s.cipher = (s.cipher, .ok (itemsOf i ((directionOf i).transform b s.k s.rounds.toNat))) := by
  rcases exec_cases i s with ⟨a, -, htr, herr⟩ | ⟨k, n, -, hnew, -⟩ | ⟨b, hexec, -, -, htr⟩
  · obtain ⟨e, rfl⟩ := herr (.inr htf)
    exact absurd ⟨e, by rw [htr]⟩ h
  · simp [isTransform_eq_false_of_isNew hnew] at htf
  · exact ⟨b, hexec, htr⟩

/-- A command that leaves IDLE took its start step. -/
theorem eq_startStep_of_running {i : Instr} {s t : State} (hph : s.ph = .idle) (h : exec i s = .next t)
    (hrunning : t.ph ≠ .idle) : ∃ b, t = (s.loadIB (operandItems i)).startStep (directionOf i) i.opcode b := by
  rcases exec_cases i s with ⟨a, hexec, -⟩ | ⟨k, n, hexec, -⟩ | ⟨b, hexec, -⟩ <;> cases hexec.symm.trans h
  · exact absurd hph hrunning
  · exact absurd hph hrunning
  · exact ⟨b, rfl⟩

theorem Direction.phase_ne_idle (d : Direction) : d.phase ≠ .idle := by cases d <;> decide

theorem cmdReady_eq_false_of_running {s : State} (hph : s.ph ≠ .idle) : s.cmdReady = false := by
  simp [State.cmdReady, hph]

/-- The `m`-th state after a start step, for `m` up to `ROUNDS`: `m` rounds are done, and only the working registers are
written. -/
theorem steps_started {i : Instr} {s : State} (b : Block) (hrst : s.rst = false) {m : Nat} (hm : m ≤ s.rounds.toNat) :
    ∃ blk sum rc, rc.toNat = m ∧
      steps m ((s.loadIB (operandItems i)).startStep (directionOf i) i.opcode b) =
        .next (((s.loadIB (operandItems i)).startStep (directionOf i) i.opcode b).withWorking blk sum rc) := by
  obtain ⟨sum, rc, hrc, hrun⟩ := steps_rounds (d := directionOf i)
    (s := (s.loadIB (operandItems i)).startStep (directionOf i) i.opcode b) m hrst rfl (by simpa using hm)
  exact ⟨_, sum, rc, by simpa using hrc, hrun⟩

/-- Settles O37: `steps_started` for the rounds, `steps_transform` for the completion. -/
theorem sequencerViewAgreesWithTheTransaction : Obligations.SequencerViewAgreesWithTheTransaction := by
  intro i s htf hok hrst
  obtain ⟨b, hexec, htr⟩ := exec_of_not_fails htf hok
  obtain ⟨sum, rc, hrun⟩ := steps_transform (s := s.loadIB (operandItems i)) b htf hrst
  refine ⟨_, _, hexec, fun m hm => ?_, hrun, rfl, rfl, ?_⟩
  · obtain ⟨blk, sum, rc, hrc, hv⟩ := steps_started b hrst hm
    exact ⟨_, hv, (directionOf i).phase_ne_idle, hrc, cmdReady_eq_false_of_running (directionOf i).phase_ne_idle, rfl⟩
  · rw [transactWords, htr]
    rfl

/-- Settles O33: each state of the run differs from the start step's in the working registers, and the last in the answer. -/
theorem transformsLeaveTheInstanceAlone : Obligations.TransformsLeaveTheInstanceAlone := by
  intro i n s t u htf hrst hph hexec hrunning hn hrun
  obtain ⟨b, rfl⟩ := eq_startStep_of_running hph hexec hrunning
  rcases Nat.le_or_eq_of_le_succ hn with hm | rfl
  · obtain ⟨blk, sum, rc, -, hv⟩ := steps_started b hrst hm
    cases hv.symm.trans hrun
    exact ⟨rfl, rfl, rfl, rfl, rfl, rfl, rfl, [], (List.append_nil _).symm⟩
  · obtain ⟨sum, rc, hu⟩ := steps_transform (s := s.loadIB (operandItems i)) b htf hrst
    cases hu.symm.trans hrun
    exact ⟨rfl, rfl, rfl, rfl, rfl, rfl, rfl, _, rfl⟩

end Sys2Proof.Machine
end

section
/-! PROOF. The channels, word by word (70_reset_and_hazards.md R202 to R204, R210): a command's words are taken and it is run,
what a step does to the ports, and what a response depends on. -/

namespace Sys2Proof.Machine

/-! ## Delivery (30_encoding.md R72) -/

theorem deliver_of_ok {h : Word} {ws : List Word} {i : Instr} (hd : decode h ws = .ok i) (s : State) :
    deliver h ws s = exec i s := by
  rw [deliver, hd]

/-- Settles O52: a frame that decodes is whole, so its last word delivers it. -/
theorem stepRunsTheDecodedCommand : Obligations.StepRunsTheDecodedCommand := by
  intro s w rest i hrst hph hout hcmd hd
  obtain ⟨-, hlen, -⟩ := decode_eq_ok_iff.mp hd
  rw [step_takes_word hrst hph hout hcmd, acceptWord, if_neg hlen.not_lt]
  exact deliver_of_ok hd _

/-- Settles O53: the words are a whole frame, which is delivered and decodes to the command. -/
theorem offeredCommandsAreDeliveredWhole : Obligations.OfferedCommandsAreDeliveredWhole := by
  intro i s rest hwf hready hcmd
  have hlen := following_length hwf
  calc steps (encode i).length s
      = steps (followCount i.header + 1) s := by rw [encode, List.length_cons, hlen]
    _ = deliver i.header i.following { s with cmdIn := rest } := hready.steps_deliver hlen hcmd
    _ = exec i { s with cmdIn := rest } := deliver_of_ok (decodeUndoesEncode i hwf) _

/-- Settles O54: an illegal command is delivered as a whole frame like any other. -/
theorem illegalCommandsKeepTheChannelInStep : Obligations.IllegalCommandsKeepTheChannelInStep := by
  rintro h ws rest s hlen ⟨e, hd⟩ hready hcmd
  obtain ⟨-, -, -, hout⟩ := id hready
  refine ⟨s.ib, [], ?_⟩
  rw [hready.steps_deliver hlen hcmd, deliver_of_error hd]
  exact congrArg _ (State.answer_of_rspOut_eq_nil (s := { s with cmdIn := rest }) hout ..)

/-! ## What a step does to the ports -/

/-- What a step under no reset can do, as the host sees it: hand a response word over, wait, take a word offered, or run on.
The last two may add a response behind the one pending, and leave the block busy. -/
inductive PortStep (s t : State) : Prop
  | response (w : Word) (rest : List Word) (hph : s.ph = .idle) (hout : s.rspOut = w :: rest) (hready : s.rspReady = true)
      (ht : t = takeResponse w rest s)
  | wait (hph : s.ph = .idle) (hhost : (s.rspOut ≠ [] ∧ s.rspReady = false) ∨ (s.rspOut = [] ∧ s.cmdIn = [])) (ht : t = s)
  | word (w : Word) (hready : s.cmdReady = true) (hcmd : s.cmdIn = w :: t.cmdIn) (htaken : t.rspTaken = s.rspTaken)
      (hbusy : t.busy = true)
  | running (hph : s.ph ≠ .idle) (hcmd : t.cmdIn = s.cmdIn) (hrx : t.rx = s.rx) (htaken : t.rspTaken = s.rspTaken)
      (hbusy : t.busy = true) (ws : List Word) (hout : t.rspOut = s.rspOut ++ ws)

/-- A command does not touch the words offered, nor those taken. -/
theorem exec_next_ports {i : Instr} {s t : State} (h : exec i s = .next t) :
    t.cmdIn = s.cmdIn ∧ t.rspTaken = s.rspTaken := by
  rcases exec_cases i s with ⟨a, hexec, -⟩ | ⟨k, n, hexec, -⟩ | ⟨b, hexec, -⟩ <;> cases hexec.symm.trans h
  all_goals exact ⟨rfl, rfl⟩

theorem idleStep_ports {s t : State} (hrst : s.rst = false) (hph : s.ph = .idle) (h : idleStep s = .next t) :
    PortStep s t := by
  rcases idleStep_cases s with ⟨w, rest, hout, hready, hs⟩ | ⟨hhost, hs⟩ | ⟨w, rest, header, ws, hout, hcmd, -, hword⟩
  · cases hs.symm.trans h
    exact .response w rest hph hout hready rfl
  · cases hs.symm.trans h
    refine .wait hph (hhost.imp_left ?_) rfl
    rintro ⟨w, rest, hout, hready⟩
    exact ⟨by simp [hout], hready⟩
  · have hready : s.cmdReady = true := (State.cmdReady_eq_true_iff s).mpr ⟨hrst, hph, hout⟩
    rcases hword with ⟨-, hs⟩ | ⟨-, i, -, hs⟩ | ⟨-, e, -, hs⟩
    · cases hs.symm.trans h
      exact .word w hready hcmd rfl (by simp [State.busy_eq_true_iff])
    · rw [hs] at h
      obtain ⟨u, hu, hbusy⟩ := exec_next_busy i { s with cmdIn := rest, rx := [] }
      cases hu.symm.trans h
      obtain ⟨hcmd', htaken⟩ := exec_next_ports h
      exact .word w hready (by rw [hcmd, hcmd']) htaken hbusy
    · cases hs.symm.trans h
      exact .word w hready hcmd rfl (by simp [State.busy_eq_true_iff])

theorem step_running_ports {d : Direction} {s t : State} (hrst : s.rst = false) (hph : s.ph = d.phase)
    (h : step s = .next t) : PortStep s t := by
  have hrunning : s.ph ≠ .idle := hph ▸ d.phase_ne_idle
  rw [step_running hrst hph] at h
  rcases runningStep_cases d.round s with ⟨-, hs⟩ | ⟨items, -, -, hs⟩ | ⟨-, -, hs⟩ | ⟨-, hs⟩ <;> cases hs.symm.trans h
  · rw [d.round_eq s]
    exact .running hrunning rfl rfl rfl ((State.busy_eq_true_iff _).mpr (.inr (.inl hrunning))) [] (List.append_nil _).symm
  · refine .running hrunning rfl rfl rfl ?_ _ (completed_rspOut s items)
    simp [State.busy_eq_true_iff, completed_rspOut, responseWords_ne_nil]

theorem step_ports {s t : State} (hrst : s.rst = false) (h : step s = .next t) : PortStep s t := by
  cases hph : s.ph with
  | idle =>
    rw [step_idle hrst hph] at h
    exact idleStep_ports hrst hph h
  | runEnc => exact step_running_ports (d := .forward) hrst hph h
  | runDec => exact step_running_ports (d := .inverse) hrst hph h

/-- Under reset nothing is transferred. -/
theorem step_reset_ports {s t : State} (hrst : s.rst = true) (h : step s = .next t) :
    t.cmdIn = s.cmdIn ∧ t.rspTaken = s.rspTaken ∧ t.rspReady = s.rspReady ∧ t.rst = s.rst ∧ t.busy = false := by
  cases (step_reset hrst).symm.trans h
  exact ⟨rfl, rfl, rfl, rfl, s.resetEvent_busy⟩

/-! ## Command words (R202) -/

theorem exists_idleStep_eq_next (s : State) : ∃ t, idleStep s = .next t := by
  rcases idleStep_cases s with ⟨w, rest, -, -, hs⟩ | ⟨-, hs⟩ | ⟨w, rest, h, ws, -, -, -, hword⟩
  · exact ⟨_, hs⟩
  · exact ⟨_, hs⟩
  · rcases hword with ⟨-, hs⟩ | ⟨-, i, -, hs⟩ | ⟨-, e, -, hs⟩
    · exact ⟨_, hs⟩
    · obtain ⟨t, ht, -⟩ := exec_next_busy i { s with cmdIn := rest, rx := [] }
      exact ⟨t, hs.trans ht⟩
    · exact ⟨_, hs⟩

/-- A block that is ready takes the first word offered, and is then busy. -/
theorem step_of_cmdReady {s : State} {w : Word} {rest : List Word} (hready : s.cmdReady = true)
    (hcmd : s.cmdIn = w :: rest) : ∃ t, step s = .next t ∧ t.cmdIn = rest ∧ t.busy = true := by
  obtain ⟨hrst, hph, hout⟩ := (State.cmdReady_eq_true_iff s).mp hready
  obtain ⟨t, ht⟩ := exists_idleStep_eq_next s
  refine ⟨t, (step_idle hrst hph).trans ht, ?_⟩
  cases idleStep_ports hrst hph ht with
  | response _ _ _ hpending => simp [hout] at hpending
  | wait _ hhost => simp [hout, hcmd] at hhost
  | word _ _ hcmd' _ hbusy => exact ⟨(List.cons.inj (hcmd'.symm.trans hcmd)).2, hbusy⟩
  | running hrunning => exact absurd hph hrunning

/-- While a transform runs or a response is pending no word is taken. -/
theorem step_holds_words {s t : State} (hrst : s.rst = false) (hheld : s.ph ≠ .idle ∨ s.rspOut ≠ [])
    (h : step s = .next t) : t.cmdIn = s.cmdIn ∧ t.rx = s.rx := by
  cases step_ports hrst h with
  | response w rest _ _ _ ht =>
    rw [ht]
    exact ⟨takeResponse_cmdIn w rest s, takeResponse_rx w rest s⟩
  | wait _ _ ht =>
    rw [ht]
    exact ⟨rfl, rfl⟩
  | word _ hready =>
    obtain ⟨-, hph, hout⟩ := (State.cmdReady_eq_true_iff s).mp hready
    exact absurd hheld (by simp [hph, hout])
  | running _ hcmd hrx => exact ⟨hcmd, hrx⟩

/-- Only a block that is ready takes a word, and it takes the first. -/
theorem cmdReady_of_word_taken {s t : State} (h : step s = .next t) (hne : t.cmdIn ≠ s.cmdIn) :
    s.cmdReady = true ∧ ∃ w, s.cmdIn = w :: t.cmdIn := by
  cases hrst : s.rst with
  | true => exact absurd (step_reset_ports hrst h).1 hne
  | false =>
    cases step_ports hrst h with
    | response w rest _ _ _ ht => exact absurd (ht ▸ takeResponse_cmdIn w rest s) hne
    | wait _ _ ht => exact absurd (ht ▸ rfl) hne
    | word w hready hcmd => exact ⟨hready, w, hcmd⟩
    | running _ hcmd => exact absurd hcmd hne

/-- Only the acceptance of a header makes the block busy. -/
theorem word_taken_of_becomes_busy {s t : State} (hbusy : s.busy = false) (h : step s = .next t) (hbusy' : t.busy = true) :
    s.rst = false ∧ ∃ w, s.cmdIn = w :: t.cmdIn := by
  obtain ⟨-, hph, hout⟩ := (State.busy_eq_false_iff s).mp hbusy
  cases hrst : s.rst with
  | true =>
    obtain ⟨-, -, -, -, hidle⟩ := step_reset_ports hrst h
    simp [hidle] at hbusy'
  | false =>
    refine ⟨rfl, ?_⟩
    cases step_ports hrst h with
    | response _ _ _ hpending => simp [hout] at hpending
    | wait _ _ ht => simp [ht, hbusy] at hbusy'
    | word w _ hcmd => exact ⟨w, hcmd⟩
    | running hrunning => exact absurd hph hrunning

/-- But for reset, only the last response word taken ends a command. -/
theorem last_response_taken_of_ceases_busy {s t : State} (hrst : s.rst = false) (hbusy : s.busy = true)
    (h : step s = .next t) (hbusy' : t.busy = false) :
    s.rspReady = true ∧ ∃ w, s.rspOut = [w] ∧ t.rspTaken = s.rspTaken ++ [w] := by
  cases step_ports hrst h with
  | response w rest _ hout hready ht =>
    obtain ⟨-, -, hnone⟩ := (State.busy_eq_false_iff t).mp hbusy'
    rw [ht, takeResponse_rspOut] at hnone
    exact ⟨hready, w, by rw [hout, hnone], by rw [ht, takeResponse_rspTaken]⟩
  | wait _ _ ht => simp [ht, hbusy] at hbusy'
  | word _ _ _ _ hstill => simp [hstill] at hbusy'
  | running _ _ _ _ hstill => simp [hstill] at hbusy'

/-- Settles O55, one clause by one lemma about the ports of a step. -/
theorem wordsAreHeldWhileBusy : Obligations.WordsAreHeldWhileBusy := by
  refine ⟨fun s t => step_holds_words, fun s t => cmdReady_of_word_taken, ?taken, State.busy_eq_true_iff, ?header,
    fun s t => word_taken_of_becomes_busy, fun s t => last_response_taken_of_ceases_busy, ?reset⟩
  case taken =>
    intro s w rest hready hcmd
    obtain ⟨t, ht, hrest, -⟩ := step_of_cmdReady hready hcmd
    exact ⟨t, ht, hrest⟩
  case header =>
    intro s w rest hrst hbusy hcmd
    obtain ⟨-, hph, hout⟩ := (State.busy_eq_false_iff s).mp hbusy
    have hready := (State.cmdReady_eq_true_iff s).mpr ⟨hrst, hph, hout⟩
    exact ⟨hready, step_of_cmdReady hready hcmd⟩
  case reset =>
    intro s t hrst h
    obtain ⟨hcmd, htaken, hready, hrst', -⟩ := step_reset_ports hrst h
    exact ⟨hcmd, htaken, hready, hrst'⟩

/-! ## Response words (R204) -/

/-- But for reset the words pending stay, or the host takes the first. -/
theorem step_keeps_response {s t : State} (hrst : s.rst = false) (h : step s = .next t) :
    (∃ ws, t.rspOut = s.rspOut ++ ws ∧ t.rspTaken = s.rspTaken) ∨
      ∃ w, s.rspReady = true ∧ s.rspOut = w :: t.rspOut ∧ t.rspTaken = s.rspTaken ++ [w] := by
  cases step_ports hrst h with
  | response w rest _ hout hready ht =>
    exact .inr ⟨w, hready, by rw [hout, ht, takeResponse_rspOut], by rw [ht, takeResponse_rspTaken]⟩
  | wait _ _ ht => exact .inl ⟨[], by rw [ht, List.append_nil], by rw [ht]⟩
  | word _ hready _ htaken =>
    obtain ⟨-, -, hout⟩ := (State.cmdReady_eq_true_iff s).mp hready
    exact .inl ⟨t.rspOut, by rw [hout, List.nil_append], htaken⟩
  | running _ _ _ htaken _ ws hout => exact .inl ⟨ws, hout, htaken⟩

/-- While a transform runs no response is pending. -/
theorem State.Inv.rspOut_eq_nil {s : State} (hs : s.Inv) (hph : s.ph ≠ .idle) : s.rspOut = [] := by
  obtain ⟨d, hd⟩ := exists_eq_phase hph
  obtain ⟨-, -, -, -, -, hout⟩ := (State.sequencerOk_iff hd).mp hs.sequencer
  exact hout

/-- A word offered to a host that is ready is taken. -/
theorem step_hands_response_over {s t : State} (hs : s.Inv) (h : step s = .next t) (hvalid : s.rspValid = true)
    (hready : s.rspReady = true) : ∃ w, s.rspData = some w ∧ t.rspTaken = s.rspTaken ++ [w] := by
  obtain ⟨hrst, hpending⟩ := (State.rspValid_eq_true_iff s).mp hvalid
  cases step_ports hrst h with
  | response w rest _ hout _ ht => exact ⟨w, by simp [State.rspData, hout], by rw [ht, takeResponse_rspTaken]⟩
  | wait _ hhost => simp [hready, hpending] at hhost
  | word _ hcmdReady =>
    obtain ⟨-, -, hout⟩ := (State.cmdReady_eq_true_iff s).mp hcmdReady
    exact absurd hout hpending
  | running hrunning => exact absurd (hs.rspOut_eq_nil hrunning) hpending

/-- No word is taken that is not offered, or that the host is not ready for. -/
theorem step_takes_no_response {s t : State} (h : step s = .next t) (hno : s.rspValid = false ∨ s.rspReady = false) :
    t.rspTaken = s.rspTaken := by
  cases hrst : s.rst with
  | true =>
    obtain ⟨-, htaken, -⟩ := step_reset_ports hrst h
    exact htaken
  | false =>
    cases step_ports hrst h with
    | response w rest _ hout hready => simp [State.rspValid, hrst, hout, hready] at hno
    | wait _ _ ht => rw [ht]
    | word _ _ _ htaken => exact htaken
    | running _ _ _ htaken => exact htaken

/-- Settles O56, one clause by one lemma about the ports of a step. -/
theorem responseWordsAreNeverLost : Obligations.ResponseWordsAreNeverLost :=
  ⟨fun _ _ => step_keeps_response, fun _ _ hs h => ⟨step_hands_response_over hs h, step_takes_no_response h⟩⟩

/-! ## Waiting (R203, R204) -/

theorem step_waits {s : State} (hrst : s.rst = false) (hph : s.ph = .idle)
    (hhost : (s.rspOut = [] ∧ s.cmdIn = []) ∨ (s.rspOut ≠ [] ∧ s.rspReady = false)) : step s = .next s := by
  rw [step_idle hrst hph]
  rcases idleStep_cases s with ⟨w, rest, hout, hready, -⟩ | ⟨-, hs⟩ | ⟨w, rest, h, ws, hout, hcmd, -⟩
  · simp [hout, hready] at hhost
  · exact hs
  · simp [hout, hcmd] at hhost

/-- Settles O57: by induction on the number of steps, each a wait. -/
theorem theBlockWaitsForTheHost : Obligations.TheBlockWaitsForTheHost := by
  intro n s hrst hph hhost
  induction n with
  | zero => rfl
  | succ n ih => rw [steps_succ_of_next (step_waits hrst hph hhost), ih]

/-! ## What a response depends on (10_state.md section 6, 20_memory.md R60) -/

theorem transactFrame_ne_nil (h : Word) (ws : List Word) (c : Cipher) : (transactFrame h ws c).2 ≠ [] := by
  rcases hd : decode h ws with e | i
  · simp [transactFrame, hd]
  · rw [transactFrame, hd]
    exact responseWords_ne_nil _ _

/-- Settles O59: both runs take the number of steps, and come to the boundary, that the command and the Cipher give. -/
theorem responsesDependOnTheInstanceAlone : Obligations.ResponsesDependOnTheInstanceAlone := by
  intro h ws rest1 rest2 s1 s2 hlen hready1 hready2 hrsp1 hrsp2 hcipher hcmd1 hcmd2
  obtain ⟨t1, hrun1, ht1⟩ := steps_frame hlen (hcmd1 ▸ hready1.atBoundary hrsp1)
  obtain ⟨t2, hrun2, ht2⟩ := steps_frame hlen (hcmd2 ▸ hready2.atBoundary hrsp2)
  rw [← hcipher] at hrun2 ht2
  exact ⟨_, t1, t2, _, hrun1, hrun2, ht1.ready, ht2.ready, ht1.cmdIn, ht2.cmdIn, transactFrame_ne_nil _ _ _, rfl,
    ht1.rspTaken, ht2.rspTaken, ht1.cipher, ht2.cipher.trans ht1.cipher.symm⟩

/-- A transform leaves the Cipher. -/
theorem transactFrame_transform {h : Word} {ws : List Word} {i : Instr} (hd : decode h ws = .ok i)
    (htf : isTransform i = true) (c : Cipher) : (transactFrame h ws c).1 = c := by
  have hnew : isNew i = false := by
    by_contra hnew
    simp [isTransform_eq_false_of_isNew (Bool.eq_true_of_not_eq_false hnew)] at htf
  rw [transactFrame, hd]
  exact transact_cipher_eq_self (.inl hnew)

/-- Settles O60: by induction on the stream, each transform handing the next the Cipher it had. -/
theorem interleavedTransformsAnswerAsAlone : Obligations.InterleavedTransformsAnswerAsAlone := by
  intro fs c htf
  induction fs with
  | nil => rfl
  | cons f fs ih =>
    obtain ⟨⟨i, hd, hi⟩, hfs⟩ := List.forall_mem_cons.mp htf
    rw [session, transactFrame_transform hd hi, ih hfs]
    rfl

end Sys2Proof.Machine
end

section
/-! PROOF. What the commands compute, for every key, block and operand: the transforms as permutations of the blocks
(41_block_codec.md section 3), the byte forms beside the word forms (20_memory.md section 2, 42_cipher_facade.md R155), and the
errors each command can end with (60_exceptions.md R186). -/

namespace Sys2Proof.Machine

/-! ## Rounds and transforms (41_block_codec.md R126, R131) -/

/-- Settles O13: the definition binds the new `z` before it updates `y`; the cancellations are R131's lemmas. -/
theorem inverseRoundUndoesTheForwardRound : Obligations.InverseRoundUndoesTheForwardRound :=
  ⟨fun _ _ _ _ _ _ _ => rfl, fun b sum k => ⟨decRound_encRound b sum k, encRound_decRound b sum k⟩⟩

/-- Settles O16: each transform has the other as its inverse. -/
theorem transformsPermuteTheBlocks : Obligations.TransformsPermuteTheBlocks := fun k n =>
  ⟨Function.bijective_iff_has_inverse.mpr ⟨(teaDec · k n), fun b => teaDec_teaEnc b k n, fun b => teaEnc_teaDec b k n⟩,
    Function.bijective_iff_has_inverse.mpr ⟨(teaEnc · k n), fun b => teaEnc_teaDec b k n, fun b => teaDec_teaEnc b k n⟩⟩

/-! ## Bytes and words (20_memory.md R54, 42_cipher_facade.md R155) -/

/-- Settles O19: eight bytes are those of a block, and a block's bytes unpack to its words. -/
theorem packAndUnpackAreInverse : Obligations.PackAndUnpackAreInverse := by
  refine ⟨fun b hb => ?_, fun w => ⟨w.bytes, w.bytes_length, pack_eq_bytes w, unpack_bytes w⟩⟩
  obtain ⟨blk, rfl⟩ := exists_eq_bytes hb
  exact ⟨blk.y, blk.z, unpack_bytes blk, pack_eq_bytes blk⟩

theorem answerWords_block (d : Direction) (b : Block) {c : Cipher} (hc : c.cfg = true) :
    answerWords d [b.y, b.z] c = .ok (wordItems (d.transform b c.k c.rounds.toNat)) := by
  simp [answerWords, hc, codecCheck_two]

/-- Settles O31: both forms transform the block whose bytes are given. -/
theorem byteAndWordFormsAgree : Obligations.ByteAndWordFormsAgree := by
  intro c b hc hb
  obtain ⟨blk, rfl⟩ := exists_eq_bytes hb
  rw [unpack_bytes]
  refine ⟨_, _, answerWords_block .forward blk hc, ?_, answerWords_block .inverse blk hc, ?_⟩
  · rw [pack_eq_bytes]
    exact answerBytes_bytes .forward blk hc
  · rw [pack_eq_bytes]
    exact answerBytes_bytes .inverse blk hc

/-! ## Keys and round counts (40_key_schedule.md R102 to R109) -/

/-- Settles O21: the count is checked first, then the elements; four integers are the key. -/
theorem fourIntegersAreAKey : Obligations.FourIntegersAreAKey :=
  ⟨fun _ => ksWords_of_length_ne, fun _ => ksWords_of_nonInt_mem, ksWords_ints⟩

/-- Settles O22: sixteen bytes unpack to the four words of the key they are. -/
theorem keyFormsAgree : Obligations.KeyFormsAgree := by
  intro b hb
  obtain ⟨b0, b1, b2, b3, b4, b5, b6, b7, b8, b9, b10, b11, b12, b13, b14, b15, rfl⟩ := sixteen_of_length hb
  rw [unpack_sixteen]
  exact ⟨_, ksBytes_sixteen .., ksWords_ints ..⟩

/-- The default round count is 32. -/
theorem roundsOf_absent : roundsOf .absent = roundsOf (.int 32) := rfl

theorem checkNew_absent (key : Except ErrName Key) : checkNew key .absent = checkNew key (.int 32) := by
  cases key with
  | error e => rfl
  | ok k => simp only [checkNew, roundsOf_absent]

theorem finishNew_absent (key : Except ErrName Key) (s : State) : finishNew key .absent s = finishNew key (.int 32) s := by
  rw [finishNew, finishNew, checkNew_absent]

/-- Settles O9: both forms of `NEW` read the round count by `ROUNDS_OF` alone. -/
theorem omittedRoundsAreThirtyTwo : Obligations.OmittedRoundsAreThirtyTwo := by
  constructor
  · intro key s
    rw [exec_newBytes, exec_newBytes, finishNew_absent]
  · intro key s
    rw [exec_newWords, exec_newWords, finishNew_absent]

/-! ## The errors of each command (60_exceptions.md R186) -/

theorem exists_ksBytes_error_iff (e : ErrName) : (∃ b, ksBytes b = .error e) ↔ e = .invalidKeyLength := by
  constructor
  · rintro ⟨b, hb⟩
    by_cases hlen : b.length = 16
    · obtain ⟨k, hk⟩ := exists_ksBytes_eq_ok hlen
      cases hk.symm.trans hb
    · cases (ksBytes_of_length_ne hlen).symm.trans hb
      rfl
  · rintro rfl
    exact ⟨[], rfl⟩

theorem exists_ksWords_error_iff (e : ErrName) :
    (∃ key, ksWords key = .error e) ↔ e = .invalidKeyShape ∨ e = .invalidKeyElement := by
  constructor
  · rintro ⟨key, hkey⟩
    by_cases hlen : key.length = 4
    · by_cases hmem : .nonInt ∈ key
      · cases (ksWords_of_nonInt_mem hlen hmem).symm.trans hkey
        exact .inr rfl
      · obtain ⟨k, hk⟩ := exists_ksWords_eq_ok hlen hmem
        cases hk.symm.trans hkey
    · cases (ksWords_of_length_ne hlen).symm.trans hkey
      exact .inl rfl
  · rintro (rfl | rfl)
    · exact ⟨[], rfl⟩
    · exact ⟨[.nonInt, .nonInt, .nonInt, .nonInt], rfl⟩

theorem roundsOf_error {r : RoundsArg} {e : ErrName} (h : roundsOf r = .error e) : e = .invalidRounds := by
  cases r with
  | absent => cases h
  | nonInt =>
    cases h
    rfl
  | int v =>
    by_cases hpos : 1 ≤ v
    · cases (roundsOf_int_of_pos hpos).symm.trans h
    · cases (roundsOf_of_badRounds (.inr ⟨v, rfl, by omega⟩)).symm.trans h
      rfl

/-- A `NEW` ends with an error of its key, or InvalidRounds behind a key that is accepted. -/
theorem exists_transactNew_err_iff {α : Type} {ks : α → Except ErrName Key} (hok : ∃ key k, ks key = .ok k) (e : ErrName) :
    (∃ key r c, (transactNew (ks key) r c).2 = .err e) ↔ (∃ key, ks key = .error e) ∨ e = .invalidRounds := by
  constructor
  · rintro ⟨key, r, c, h⟩
    rcases hkey : ks key with e' | k
    · cases (transactNew_of_key_error hkey r c).symm.trans h
      exact .inl ⟨key, hkey⟩
    · rcases hr : roundsOf r with e' | n
      · cases (transactNew_of_error (checkNew_of_rounds_error rfl hr) c).symm.trans (hkey ▸ h)
        exact .inr (roundsOf_error hr)
      · simp [transactNew, checkNew_of_ok hkey hr] at h
  · rintro (⟨key, hkey⟩ | rfl)
    · exact ⟨key, .absent, State.reset.cipher, transactNew_of_key_error hkey _ _⟩
    · obtain ⟨key, k, hk⟩ := hok
      exact ⟨key, .nonInt, State.reset.cipher, transactNew_of_badRounds ⟨k, hk⟩ (.inl rfl) _⟩

theorem exists_answerBytes_err_iff (d : Direction) (e : ErrName) :
    (∃ b c, answerBytes d b c = .err e) ↔ e = .invalidBlockLength ∨ e = .notConfigured := by
  constructor
  · rintro ⟨b, c, h⟩
    cases hc : c.cfg with
    | false =>
      cases (answerBytes_notConfigured d b hc).symm.trans h
      exact .inr rfl
    | true =>
      by_cases hb : b.length = 8
      · obtain ⟨blk, rfl⟩ := exists_eq_bytes hb
        cases (answerBytes_bytes d blk hc).symm.trans h
      · cases (answerBytes_invalidBlockLength d hc hb).symm.trans h
        exact .inl rfl
  · rintro (rfl | rfl)
    · exact ⟨[], { State.reset.cipher with cfg := true }, rfl⟩
    · exact ⟨[], State.reset.cipher, rfl⟩

theorem exists_answerWords_err_iff (d : Direction) (e : ErrName) :
    (∃ w c, answerWords d w c = .err e) ↔ e = .malformedBlock ∨ e = .notConfigured := by
  constructor
  · rintro ⟨w, c, h⟩
    cases hc : c.cfg with
    | false =>
      cases (answerWords_notConfigured d w hc).symm.trans h
      exact .inr rfl
    | true =>
      by_cases hw : w.length = 2
      · obtain ⟨y, z, rfl⟩ := List.length_eq_two.mp hw
        cases (answerWords_block d ⟨y, z⟩ hc).symm.trans h
      · cases (answerWords_malformedBlock d hc hw).symm.trans h
        exact .inl rfl
  · rintro (rfl | rfl)
    · exact ⟨[], { State.reset.cipher with cfg := true }, rfl⟩
    · exact ⟨[], State.reset.cipher, rfl⟩

/-- Settles O41, each command by the lemma about its answer. -/
theorem eachCommandHasItsOwnErrors : Obligations.EachCommandHasItsOwnErrors := by
  intro e
  refine ⟨fun c => ⟨Answer.noConfusion, Answer.noConfusion⟩, ?newBytes, ?newWords, exists_answerBytes_err_iff .forward e,
    exists_answerBytes_err_iff .inverse e, exists_answerWords_err_iff .forward e, exists_answerWords_err_iff .inverse e⟩
  case newBytes =>
    rw [← exists_ksBytes_error_iff]
    exact exists_transactNew_err_iff ⟨List.replicate 16 0, exists_ksBytes_eq_ok rfl⟩ e
  case newWords =>
    rw [← or_assoc, ← exists_ksWords_error_iff]
    exact exists_transactNew_err_iff ⟨_, _, ksWords_ints 0 0 0 0⟩ e

end Sys2Proof.Machine
end
